-- ==== Sys2Proof/Word.lean ====
section
/-! DEFINITION. The word types of the unu-pipeline core (00_scope.md R6: XLEN = 32, FLAGW = ALUW = 64). -/

namespace Sys2Proof

/-- One byte of the address space (20_memory.md R50). -/
abbrev Byte := BitVec 8

/-- R0..R7, PC, a memory word, an instruction word: `XLEN` = `ILEN` = 32 bits (00_scope.md R6).
A register is the two's-complement pattern of the spec's int32. -/
abbrev Word := BitVec 32

/-- FLAG, the ALU and the value fields of the latches: `FLAGW` = `ALUW` = 64 bits (00_scope.md R6).
The two's-complement pattern of the spec's int64. -/
abbrev DWord := BitVec 64

end Sys2Proof
end

