-- ==== Sys2Proof/Config.lean ====
section
/-! DEFINITION. What an instance of the core is given: the model arguments of 00_scope.md R6, the mnemonics that
`P_OPCODE_MAP` ranges over, and the free value of memory. Their default values stand in Decode.lean. -/

namespace Sys2Proof

/-- The twelve mnemonics of the unu ISA (00_scope.md R1), in the order of 30_encoding.md R74. The latches carry one
as the payload field `op` (10_state.md R29). -/
inductive Mnemonic where
  | load | store | add | sub | and | or | xor | mov | cmp | brn | beq | bne
deriving DecidableEq, Repr

namespace Config

/-- `ILEN` in bytes: every instruction is four bytes (00_scope.md R6, 30_encoding.md R78). -/
abbrev instrBytes : Nat := 4

/-- `NREG`: the register indices are 0..9 (00_scope.md R6, 10_state.md R22). -/
abbrev numRegs : Nat := 10

/-- `NOPC`: the opcode values are 0..11 under every map (00_scope.md R6, 30_encoding.md R74). -/
abbrev numOpcodes : Nat := 12

/-- The twelve mnemonics, each once. -/
def mnemonics : List Mnemonic :=
  [.load, .store, .add, .sub, .and, .or, .xor, .mov, .cmp, .brn, .beq, .bne]

/-- A `P_OPCODE_MAP` is a bijection from 0..11 to the twelve mnemonics (30_encoding.md R74): twelve entries, none
twice, and every mnemonic among them. -/
abbrev OpcodeMapWf (m : List Mnemonic) : Prop :=
  m.length = numOpcodes ∧ m.Nodup ∧ ∀ x ∈ mnemonics, x ∈ m

/-- The model arguments of the step (00_scope.md R6, 10_state.md R35): the bounds `P_LB` and `P_UB` of the address
space, the reset value `P_PC_RESET` of PC and the opcode assignment `P_OPCODE_MAP`. `P_MEM_INIT` is the argument
`image` of `State.new`. No step reads `pcReset` and no step changes any of them. -/
structure Params where
  lb : Nat
  ub : Nat
  pcReset : Word
  opcodeMap : List Mnemonic
deriving DecidableEq, Repr

/-- What R6 asks of the arguments: `0 <= P_LB <= P_UB <= 2^31`, and an opcode map that is a bijection. Other values are
terms of the type too: `clockCycle` and `newProcessor` refuse them (93_implementation_defined.md I14,
notes/assumptions/10.md). -/
abbrev Params.Wf (p : Params) : Prop :=
  p.lb ≤ p.ub ∧ p.ub ≤ 2 ^ 31 ∧ OpcodeMapWf p.opcodeMap

/-- A free value: the byte of `P_MEM_INIT` at an address whose byte the model was not given. 20_memory.md R68: "A model
must not assume any byte value it is not given. In particular it must not assume zero." It has no body, so no statement
can rest on what it is. DESIGN CHOICE of form, safe (notes/assumptions/3.md). -/
opaque memInit : Nat → Byte

end Config
end Sys2Proof
end

