-- ==== Sys2Proof/Syntax.lean ====
section
/-! DEFINITION. The instruction set as data: one constructor per row of spec/opcode_table.json. -/

namespace Sys2Proof

/-- The source-2 field with the immediate flag that selects its reading (30_encoding.md R71 to R73): with `imm = 1`
the sixteen bits are a literal, with `imm = 0` they are a register index. Both keep all sixteen bits, since
R76 case 4 refuses an index by its value. -/
inductive Src2 where
  | imm (value : BitVec 16)
  | reg (index : BitVec 16)
deriving DecidableEq, Repr

/-- The twelve instructions (00_scope.md R1). Every one has the raw fields of the single format
(30_encoding.md R71): `rd`, `rs1` and source 2; what each field is for is 30_encoding.md R75. -/
inductive Instr where
  | load  (rd rs1 : BitVec 4) (src2 : Src2)
  | store (rd rs1 : BitVec 4) (src2 : Src2)
  | add   (rd rs1 : BitVec 4) (src2 : Src2)
  | sub   (rd rs1 : BitVec 4) (src2 : Src2)
  | and   (rd rs1 : BitVec 4) (src2 : Src2)
  | or    (rd rs1 : BitVec 4) (src2 : Src2)
  | xor   (rd rs1 : BitVec 4) (src2 : Src2)
  | mov   (rd rs1 : BitVec 4) (src2 : Src2)
  | cmp   (rd rs1 : BitVec 4) (src2 : Src2)
  | brn   (rd rs1 : BitVec 4) (src2 : Src2)
  | beq   (rd rs1 : BitVec 4) (src2 : Src2)
  | bne   (rd rs1 : BitVec 4) (src2 : Src2)
deriving DecidableEq, Repr

/-- The instruction's mnemonic, the value `P_OPCODE_MAP` gives for its opcode. -/
def Instr.mnemonic : Instr → Mnemonic
  | .load _ _ _ => .load
  | .store _ _ _ => .store
  | .add _ _ _ => .add
  | .sub _ _ _ => .sub
  | .and _ _ _ => .and
  | .or _ _ _ => .or
  | .xor _ _ _ => .xor
  | .mov _ _ _ => .mov
  | .cmp _ _ _ => .cmp
  | .brn _ _ _ => .brn
  | .beq _ _ _ => .beq
  | .bne _ _ _ => .bne

/-- The raw destination field W[23:20]. -/
def Instr.rd : Instr → BitVec 4
  | .load rd _ _ | .store rd _ _ | .add rd _ _ | .sub rd _ _ | .and rd _ _ | .or rd _ _
  | .xor rd _ _ | .mov rd _ _ | .cmp rd _ _ | .brn rd _ _ | .beq rd _ _ | .bne rd _ _ => rd

/-- The raw source-1 field W[19:16]. -/
def Instr.rs1 : Instr → BitVec 4
  | .load _ rs1 _ | .store _ rs1 _ | .add _ rs1 _ | .sub _ rs1 _ | .and _ rs1 _ | .or _ rs1 _
  | .xor _ rs1 _ | .mov _ rs1 _ | .cmp _ rs1 _ | .brn _ rs1 _ | .beq _ rs1 _ | .bne _ rs1 _ => rs1

/-- The source-2 field W[15:0] with the immediate flag W[24]. -/
def Instr.src2 : Instr → Src2
  | .load _ _ s | .store _ _ s | .add _ _ s | .sub _ _ s | .and _ _ s | .or _ _ s
  | .xor _ _ s | .mov _ _ s | .cmp _ _ s | .brn _ _ s | .beq _ _ s | .bne _ _ s => s

end Sys2Proof
end

