-- ==== Sys2Proof/WellFormed.lean ====
section
/-! DEFINITION. Which instructions a word can stand for: 30_encoding.md R76 cases 2 to 4 (case 1, the opcode, cannot
fail for a term of `Instr`). -/

namespace Sys2Proof

/-- A 4-bit register field names one of the ten registers (10_state.md R22). -/
def regFieldWf (r : BitVec 4) : Bool := decide (r.toNat < Config.numRegs)

/-- A literal is always legal (30_encoding.md R77). A register index is the signed value of the sixteen bits and must
be 0..9 (R73). -/
def Src2.wf : Src2 → Bool
  | .imm _ => true
  | .reg i => decide (0 ≤ i.toInt) && decide (i.toInt ≤ 9)

/-- An instruction is well formed when R76 raises no error for it. The raw `rs1` is checked for every mnemonic, also
where the instruction ignores it (40_pipeline.md R112). -/
def Instr.wf (i : Instr) : Bool := regFieldWf i.rd && regFieldWf i.rs1 && i.src2.wf

end Sys2Proof
end

