-- ==== Sys2Proof/Decode.lean ====
section
/-! DEFINITION. The default opcode map and arguments, and the instruction codec (30_encoding.md): fields of a word,
decoding (total, refusing by name), the encoder, and the byte order of an instruction in memory. -/

namespace Sys2Proof

/-- The default `P_OPCODE_MAP` (30_encoding.md R74): entry `n` is the mnemonic of opcode `n`. A guess of the spec
(00_scope.md R7, notes/assumptions/8.md): the source gives the names of the opcodes, not their numbers. -/
def Config.defaultOpcodeMap : List Mnemonic :=
  [.load, .store, .add, .sub, .and, .or, .xor, .mov, .cmp, .brn, .beq, .bne]

/-- The arguments `State.reset` is made with. DESIGN CHOICE (notes/assumptions/2.md), unsafe: the widest region R6
allows, `P_LB` = 0 and `P_UB` = 2^31, `P_PC_RESET` at its default `P_LB`, the default opcode map. The spec gives no
values for the bounds; every statement of this model is about a state whose arguments are arbitrary. -/
def Config.defaultParams : Config.Params :=
  { lb := 0, ub := 2 ^ 31, pcReset := 0, opcodeMap := Config.defaultOpcodeMap }

/-- Why a word is no instruction: the four cases of 30_encoding.md R76, in the order they are checked. -/
inductive DecodeError where
  | invalidOpcode
  | invalidRd
  | invalidRs1
  | invalidSrc2
deriving DecidableEq, Repr

/-- Why a byte string does not begin with an instruction: fewer than the four bytes every instruction has
(30_encoding.md R78; a fetch always reads four, notes/assumptions/12.md), or a word that is none. -/
inductive BytesError where
  | truncated
  | invalid (e : DecodeError)
deriving DecidableEq, Repr

/-- W[31:25] (30_encoding.md R71). -/
def fieldOp (w : Word) : BitVec 7 := w.extractLsb' 25 7
/-- W[24] (30_encoding.md R71). -/
def fieldImm (w : Word) : BitVec 1 := w.extractLsb' 24 1
/-- W[23:20] (30_encoding.md R71). -/
def fieldRd (w : Word) : BitVec 4 := w.extractLsb' 20 4
/-- W[19:16] (30_encoding.md R71). -/
def fieldRs1 (w : Word) : BitVec 4 := w.extractLsb' 16 4
/-- W[15:0] (30_encoding.md R71). -/
def fieldSrc2 (w : Word) : BitVec 16 := w.extractLsb' 0 16

/-- Source 2 as the immediate flag reads it (30_encoding.md R72, R73). -/
def decodeSrc2 (imm : BitVec 1) (field : BitVec 16) : Src2 :=
  if imm = 1 then .imm field else .reg field

/-- The instruction of a mnemonic with the three raw operand fields. -/
def mkInstr (m : Mnemonic) (rd rs1 : BitVec 4) (src2 : Src2) : Instr :=
  match m with
  | .load => .load rd rs1 src2
  | .store => .store rd rs1 src2
  | .add => .add rd rs1 src2
  | .sub => .sub rd rs1 src2
  | .and => .and rd rs1 src2
  | .or => .or rd rs1 src2
  | .xor => .xor rd rs1 src2
  | .mov => .mov rd rs1 src2
  | .cmp => .cmp rd rs1 src2
  | .brn => .brn rd rs1 src2
  | .beq => .beq rd rs1 src2
  | .bne => .bne rd rs1 src2

/-- The mnemonic `P_OPCODE_MAP` gives for an opcode value. 12..127 have none under every map
(30_encoding.md R74, R76; 40_pipeline.md R104). -/
def opcodeMnemonic (map : List Mnemonic) (op : BitVec 7) : Option Mnemonic :=
  if op.toNat < Config.numOpcodes then map[op.toNat]? else none

/-- The register index of a register-mode source 2: the signed value of the field, if it is 0..9
(30_encoding.md R73). -/
def src2Index (i : BitVec 16) : Option Nat :=
  if 0 ≤ i.toInt ∧ i.toInt ≤ 9 then some i.toInt.toNat else none

/-- Decode's range checks on the raw operand fields, in the order of 30_encoding.md R76 (cases 2 to 4) and
40_pipeline.md R112. `none` when all hold. -/
def operandError (rd rs1 : BitVec 4) (src2 : Src2) : Option DecodeError :=
  if Config.numRegs ≤ rd.toNat then some .invalidRd
  else if Config.numRegs ≤ rs1.toNat then some .invalidRs1
  else match src2 with
    | .imm _ => none
    | .reg i => if (src2Index i).isNone then some .invalidSrc2 else none

/-- The instruction a word stands for under an opcode map, or the first check of 30_encoding.md R76 that fails. Every
one of the 2^32 words gives exactly one of these. -/
def decodeWord (map : List Mnemonic) (w : Word) : Except DecodeError Instr :=
  match opcodeMnemonic map (fieldOp w) with
  | none => .error .invalidOpcode
  | some m =>
    match operandError (fieldRd w) (fieldRs1 w) (decodeSrc2 (fieldImm w) (fieldSrc2 w)) with
    | some e => .error e
    | none => .ok (mkInstr m (fieldRd w) (fieldRs1 w) (decodeSrc2 (fieldImm w) (fieldSrc2 w)))

/-- Four bytes as a 32-bit word, the first (lowest address) most significant (20_memory.md R52, R54, R55). -/
def wordOfBytes (b0 b1 b2 b3 : Byte) : Word := b0 ++ b1 ++ b2 ++ b3

/-- Byte `k` (0 to 3) of a word in memory order, byte 0 most significant (20_memory.md R53). -/
def byteOfWord (w : Word) (k : Nat) : Byte := w.extractLsb' (24 - 8 * k) 8

/-- The bytes of a word in memory order. -/
def bytesOfWord (w : Word) : List Byte :=
  [byteOfWord w 0, byteOfWord w 1, byteOfWord w 2, byteOfWord w 3]

/-- The instruction at the head of a byte string, and the bytes after it (30_encoding.md R70, R78). -/
def decodeBytes (map : List Mnemonic) (bs : List Byte) : Except BytesError (Instr × List Byte) :=
  match bs with
  | b0 :: b1 :: b2 :: b3 :: rest =>
    match decodeWord map (wordOfBytes b0 b1 b2 b3) with
    | .ok i => .ok (i, rest)
    | .error e => .error (.invalid e)
  | _ => .error .truncated

/-- The opcode value of a mnemonic under a map: its place in the list (notes/assumptions/8.md). -/
def opcodeOf (map : List Mnemonic) (m : Mnemonic) : BitVec 7 := BitVec.ofNat 7 (map.idxOf m)

/-- The immediate flag of a source 2 (30_encoding.md R71). -/
def immBit : Src2 → BitVec 1
  | .imm _ => 1
  | .reg _ => 0

/-- The sixteen bits of a source 2 (30_encoding.md R71). -/
def src2Bits : Src2 → BitVec 16
  | .imm v => v
  | .reg i => i

/-- The encoding function of 30_encoding.md R79: `op`, `imm`, `rd`, `rs1` and `src2` from the most significant
end. -/
def encodeFields (op : BitVec 7) (imm : BitVec 1) (rd rs1 : BitVec 4) (src2 : BitVec 16) : Word :=
  op ++ imm ++ rd ++ rs1 ++ src2

/-- The word of an instruction under an opcode map (30_encoding.md R79). -/
def encode (map : List Mnemonic) (i : Instr) : Word :=
  encodeFields (opcodeOf map i.mnemonic) (immBit i.src2) i.rd i.rs1 (src2Bits i.src2)

/-- The four bytes of an instruction in memory, most significant first (30_encoding.md R79). -/
def encodeBytes (map : List Mnemonic) (i : Instr) : List Byte := bytesOfWord (encode map i)

/-- The instruction the decoder reads, under the default opcode map, from the one 32-bit word `w` of an
opcode-table row: its bytes are laid out as in memory (R70) and decoded. The row's `nbits` bits are all the bits
there are, so bits from `nbits` on are 0. -/
def decodeTableWord (nbits w : Nat) : Option Instr :=
  match decodeBytes Config.defaultOpcodeMap (bytesOfWord (BitVec.ofNat 32 (w % 2 ^ nbits))) with
  | .ok (i, _) => some i
  | .error _ => none

end Sys2Proof
end

