-- ==== Sys2Proof/Machine/State.lean ====
section
/-! DEFINITION. The state of the core (10_state.md R20) as plain data, and the state after reset
(70_reset_and_hazards.md R220). -/

namespace Sys2Proof.Machine

/-- The three error tags (60_exceptions.md R201 to R204). -/
inductive FaultCode where
  | invalidOpcode
  | invalidReg
  | segfault
deriving DecidableEq, Repr

/-- The stage that raised an error: F, D, E, M or W (10_state.md R34). -/
inductive Stage where
  | fetch | decode | execute | memory | writeBack
deriving DecidableEq, Repr

/-- The error record of 10_state.md R34: the tag, the stage that raised it, and the fetch-time PC of the faulting
instruction (for a Fetch fault, the PC it tried to fetch). The record holds no data address
(60_exceptions.md R203). -/
structure ErrorRecord where
  code : FaultCode
  stage : Stage
  pc : Word
deriving DecidableEq, Repr

/-- The run status (10_state.md R34). -/
inductive Status where
  | running
  | halted (e : ErrorRecord)
deriving DecidableEq, Repr

/-- The ALU operation selector (10_state.md R31). -/
inductive AluOp where
  | add | sub | and | or | xor | pass
deriving DecidableEq, Repr

/-- The write-back source selector (10_state.md R31). `none` is the table's NONE. -/
inductive WbSrc where
  | alu | mem | none
deriving DecidableEq, Repr

/-- The control-signal tuple (10_state.md R31). -/
structure Ctrl where
  regWrite : Bool
  memRead : Bool
  memWrite : Bool
  aluOp : AluOp
  wbSrc : WbSrc
  branch : Bool
deriving DecidableEq, Repr

/-- The Fetch latch's payload (10_state.md R29): the raw word and the address it was fetched from. -/
structure FPayload where
  word : Word
  fpc : Word
deriving DecidableEq, Repr

/-- The Decode latch's payload (10_state.md R29): normalized destination index (0..9, held as a number:
notes/assumptions/9.md), operand values and store data. -/
structure DPayload where
  op : Mnemonic
  ctl : Ctrl
  rd : Nat
  a : DWord
  b : DWord
  sd : DWord
  fpc : Word
deriving DecidableEq, Repr

/-- The Execute latch's payload (10_state.md R29): `res` is the ALU result. -/
structure EPayload where
  op : Mnemonic
  ctl : Ctrl
  rd : Nat
  sd : DWord
  fpc : Word
  res : DWord
deriving DecidableEq, Repr

/-- The Memory latch's payload (10_state.md R29): `md` is the loaded value, present only if `ctl.memRead`. -/
structure MPayload where
  op : Mnemonic
  ctl : Ctrl
  rd : Nat
  res : DWord
  fpc : Word
  md : Option DWord
deriving DecidableEq, Repr

/-- The Write-back latch's payload (10_state.md R29): whether a register was written, and the value it then holds. -/
structure WPayload where
  op : Mnemonic
  rd : Nat
  fpc : Word
  wrote : Bool
  value : DWord
deriving DecidableEq, Repr

/-- A latch slot (10_state.md R29): a bubble (R30), an instruction, or the error of the stage that owns the slot. -/
inductive Latch (α : Type) where
  | empty
  | full (p : α)
  | fault (e : ErrorRecord)
deriving DecidableEq, Repr

/-- The bytes of the address space that the model was given or that were written since, by strictly rising address
(the canonical form, `Memory.wf`). The byte of `P_MEM_INIT` at an address not listed is the free value
`Config.memInit` (20_memory.md R68, notes/assumptions/3.md). -/
abbrev Memory := List Host.Cell

/-- The state of the core (10_state.md R20). `par` is the model's own field: the model arguments of 00_scope.md R6,
which `step` needs and no step changes (notes/assumptions/1.md). -/
structure State where
  /-- R0..R7, R21 -/
  regs : Vector Word 8
  /-- register index 8, R23 -/
  pc : Word
  /-- register index 9, R26 -/
  flag : DWord
  /-- Fetch latch, R28 -/
  lf : Latch FPayload
  /-- Decode latch, R28 -/
  ld : Latch DPayload
  /-- Execute latch, R28 -/
  le : Latch EPayload
  /-- Memory latch, R28 -/
  lm : Latch MPayload
  /-- Write-back latch, output only, R28 -/
  lw : Latch WPayload
  /-- hazard-control state, R32 -/
  stall : Bool
  bubbleNext : Bool
  flush : Bool
  /-- R34 -/
  status : Status
  /-- 20_memory.md R50 -/
  mem : Memory
  par : Config.Params
deriving DecidableEq, Repr

/-- Why `step` gives no next state. -/
inductive Fault where
  /-- Raised by `step`, and by the meaning of every instruction, on a processor that has halted: 40_pipeline.md R134,
  "it is refused: it changes nothing and returns `e` again". Safe: the spec gives a halted core no further cycle
  (60_exceptions.md R208). -/
  | halted (e : ErrorRecord)
deriving DecidableEq, Repr

/-- Why an instruction, a cycle or `new` has no meaning. -/
inductive Refusal where
  /-- Raised by `exec` for an instruction whose meaning is not written yet; safe. No arm of `exec` answers it: all
  twelve instructions have their meaning. -/
  | notModelled (mnemonic : String)
  /-- Raised by `new` over, and by a cycle of a running core with, arguments that 00_scope.md R6 does not allow: a region
  above 2^31 bytes, a lower bound above the upper, an opcode map that is no bijection; and by `new` over contents that
  are not those of the region (20_memory.md R50). 93_implementation_defined.md I14 (on 20_memory.md R67): `allocate`
  "failing, or a region larger than 2^31 bytes" is `refuse`; the other cases are refused likewise
  (notes/assumptions/10.md). Safe: the spec describes no such core. -/
  | unsupportedArguments
  /-- Raised by `new` where the host's `allocate` gave no region. 20_memory.md R67: "If allocation fails there is no
  processor"; 93_implementation_defined.md I14 is `refuse`. Safe. -/
  | noRegion
deriving DecidableEq, Repr

/-- `new(memory_handle)` (40_pipeline.md R136): the state after reset over a given region (`par.lb`, `par.ub`) with
contents `image` (`P_MEM_INIT`), every element as 70_reset_and_hazards.md R220 sets it. `newProcessor` checks the
arguments first. -/
def State.new (par : Config.Params) (image : Memory) : State :=
  { regs := Vector.replicate 8 0
    pc := par.pcReset
    flag := 0
    lf := .empty
    ld := .empty
    le := .empty
    lm := .empty
    lw := .empty
    stall := false
    bubbleNext := false
    flush := false
    status := .running
    mem := image
    par := par }

/-- The machine right after reset (70_reset_and_hazards.md R220), with the model arguments of
`Config.defaultParams` and no byte of `P_MEM_INIT` given, so that every byte is a free value (notes/assumptions/2.md and
3.md). -/
def State.reset : State := State.new Config.defaultParams []

end Sys2Proof.Machine
end

