-- ==== Sys2Proof/Machine/ControlUnit.lean ====
section
/-! DEFINITION. The control-signal unit (40_pipeline.md R100 to R104): the tuple of each mnemonic and the uniform
(dest, src1) shape of the operand fields. -/

namespace Sys2Proof.Machine

/-- The control signals per mnemonic (40_pipeline.md R101). -/
def signalsFor : Mnemonic → Ctrl
  | .load => { regWrite := true, memRead := true, memWrite := false, aluOp := .add, wbSrc := .mem, branch := false }
  | .store => { regWrite := false, memRead := false, memWrite := true, aluOp := .add, wbSrc := .none, branch := false }
  | .add => { regWrite := true, memRead := false, memWrite := false, aluOp := .add, wbSrc := .alu, branch := false }
  | .sub => { regWrite := true, memRead := false, memWrite := false, aluOp := .sub, wbSrc := .alu, branch := false }
  | .and => { regWrite := true, memRead := false, memWrite := false, aluOp := .and, wbSrc := .alu, branch := false }
  | .or => { regWrite := true, memRead := false, memWrite := false, aluOp := .or, wbSrc := .alu, branch := false }
  | .xor => { regWrite := true, memRead := false, memWrite := false, aluOp := .xor, wbSrc := .alu, branch := false }
  | .mov => { regWrite := true, memRead := false, memWrite := false, aluOp := .pass, wbSrc := .alu, branch := false }
  | .cmp => { regWrite := true, memRead := false, memWrite := false, aluOp := .sub, wbSrc := .alu, branch := false }
  | .brn => { regWrite := false, memRead := false, memWrite := false, aluOp := .add, wbSrc := .none, branch := true }
  | .beq => { regWrite := false, memRead := false, memWrite := false, aluOp := .add, wbSrc := .none, branch := true }
  | .bne => { regWrite := false, memRead := false, memWrite := false, aluOp := .add, wbSrc := .none, branch := true }

/-- The normalized fields `src1n` and `rdn` as register indices (40_pipeline.md R102, R103). -/
structure Roles where
  src1 : Nat
  dest : Nat
deriving DecidableEq, Repr

/-- LOAD, STORE, arithmetic, logic and MOV: `src1n = rs1`, `rdn = rd` (40_pipeline.md R103). -/
def plainRoles (rd rs1 : BitVec 4) : Roles := { src1 := rs1.toNat, dest := rd.toNat }

/-- CMP and the branches: `src1n` is the raw `rd`, `rdn` is FLAG's index 9; the raw `rs1` is discarded
(40_pipeline.md R102, R103). -/
def flagRoles (rd _rs1 : BitVec 4) : Roles := { src1 := rd.toNat, dest := 9 }

end Sys2Proof.Machine
end

