-- ==== Sys2Proof/Machine/Flags.lean ====
section
/-! DEFINITION. The one condition code: FLAG (10_state.md R26) and the branch conditions over it. FLAG is written only
as a destination, through the accessor (`State.writeReg`, index 9); no instruction writes it as a side effect. -/

namespace Sys2Proof.Machine

/-- `Taken(op, f)` (40_pipeline.md R117): BRN always, BEQ when FLAG = 0, BNE when FLAG ≠ 0, on all 64 bits
(43_compare_branch.md R182). The other mnemonics have no branch condition. -/
def taken (op : Mnemonic) (f : DWord) : Bool :=
  match op with
  | .brn => true
  | .beq => decide (f = 0)
  | .bne => decide (f ≠ 0)
  | _ => false

end Sys2Proof.Machine
end

