-- ==== Sys2Proof/Machine/Ops.lean ====
section
/-! DEFINITION. The named operations of the machine: the address space (20_memory.md), the uniform register accessor
(10_state.md R27), the ALU (40_pipeline.md R106) and raising an error (60_exceptions.md R200). -/

namespace Sys2Proof.Machine

/-! ## The address space -/

/-- The byte listed for an address, if there is one. -/
def Memory.given : Memory → Nat → Option Byte
  | [], _ => none
  | (b, v) :: rest, a => if a = b then some v else Memory.given rest a

/-- The byte at an address (20_memory.md R50): the one listed, else that of `P_MEM_INIT`, which the model was not given
and which is a free value (R68). -/
def Memory.byteAt (m : Memory) (a : Nat) : Byte := (m.given a).getD (Config.memInit a)

/-- Write one byte, keeping the canonical form. -/
def Memory.setByte : Memory → Nat → Byte → Memory
  | [], a, v => [(a, v)]
  | (b, w) :: rest, a, v =>
    if a < b then (a, v) :: (b, w) :: rest
    else if a = b then (a, v) :: rest
    else (b, w) :: Memory.setByte rest a v

/-- The canonical form: addresses strictly rising. An address not listed has no given byte, so no entry can equal what
it reads as. -/
def Memory.wf : Memory → Bool
  | [] => true
  | [_] => true
  | (a, _) :: (b, w) :: rest => decide (a < b) && Memory.wf ((b, w) :: rest)

/-- `InBounds(a)` (20_memory.md R51): all four bytes of the access lie in `[P_LB, P_UB)`. The address is a
mathematical integer, neither truncated nor wrapped. -/
def inBounds (p : Config.Params) (a : Int) : Bool :=
  decide ((p.lb : Int) ≤ a) && decide (a + 4 ≤ (p.ub : Int))

/-- `MemRead(a, 4)`, big-endian (20_memory.md R52). -/
def Memory.readWord (m : Memory) (a : Nat) : Word :=
  wordOfBytes (m.byteAt a) (m.byteAt (a + 1)) (m.byteAt (a + 2)) (m.byteAt (a + 3))

/-- `MemWrite(a, 4, v)` of the word `u = bits_32(v)`, big-endian (20_memory.md R53). -/
def Memory.writeWord (m : Memory) (a : Nat) (u : Word) : Memory :=
  (((m.setByte a (byteOfWord u 0)).setByte (a + 1) (byteOfWord u 1)).setByte (a + 2) (byteOfWord u 2)).setByte
    (a + 3) (byteOfWord u 3)

/-! ## Widths (00_scope.md R9) -/

/-- `sext_64` of a 32-bit value: the value of a register, a fetch-time PC or a loaded word as an ALU operand. -/
def sext32 (w : Word) : DWord := w.signExtend 64

/-- `sext_64` of the 16-bit source-2 literal (30_encoding.md R72). -/
def sext16 (f : BitVec 16) : DWord := f.signExtend 64

/-- `trunc_32` (equally `bits_32`) of a 64-bit value. -/
def trunc32 (v : DWord) : Word := v.setWidth 32

/-! ## The uniform register accessor (10_state.md R27) -/

/-- `x[i]`: the live value of a register index, `none` where the accessor raises InvalidReg. -/
def State.readReg (s : State) (i : Nat) : Option DWord :=
  if h : i < 8 then some (sext32 s.regs[i])
  else if i = 8 then some (sext32 s.pc)
  else if i = 9 then some s.flag
  else none

/-- `x[i] <- v`: truncated to the width of the destination, `none` where the accessor raises InvalidReg. -/
def State.writeReg (s : State) (i : Nat) (v : DWord) : Option State :=
  if h : i < 8 then some { s with regs := s.regs.set i (trunc32 v) }
  else if i = 8 then some { s with pc := trunc32 v }
  else if i = 9 then some { s with flag := v }
  else none

/-! ## The ALU -/

/-- `alu(op, a, b)`, 64 bits wide, total, wrapping modulo 2^64 (40_pipeline.md R106, R107). -/
def alu (op : AluOp) (a b : DWord) : DWord :=
  match op with
  | .add => a + b
  | .sub => a - b
  | .and => a &&& b
  | .or => a ||| b
  | .xor => a ^^^ b
  | .pass => b

/-! ## Errors -/

/-- Taking an error (60_exceptions.md R200): the raising stage's own slot holds `Fault(e)` and the status becomes
`Halted(e)`. Nothing else changes. There is no handler, no saved register and no return (R209). -/
def State.haltAt (s : State) (stage : Stage) (e : ErrorRecord) : State :=
  match stage with
  | .fetch => { s with lf := .fault e, status := .halted e }
  | .decode => { s with ld := .fault e, status := .halted e }
  | .execute => { s with le := .fault e, status := .halted e }
  | .memory => { s with lm := .fault e, status := .halted e }
  | .writeBack => { s with lw := .fault e, status := .halted e }

/-- `raise code {stage, pc}` (00_scope.md R10). -/
def State.raise (s : State) (code : FaultCode) (stage : Stage) (pc : Word) : State :=
  s.haltAt stage { code := code, stage := stage, pc := pc }

/-- The number `run` returns for an error (60_exceptions.md R204). -/
def FaultCode.exitCode : FaultCode → Int
  | .invalidOpcode => -100
  | .invalidReg => -101
  | .segfault => -102

/-- "Nothing after a `raise` in a cycle is performed" (00_scope.md R10): the next step of a cycle runs only while the
status is Running. -/
def State.andThen (s : State) (next : State → State) : State :=
  match s.status with
  | .running => next s
  | .halted _ => s

end Sys2Proof.Machine
end

