-- ==== Sys2Proof/Machine/Operands.lean ====
section
/-! DEFINITION. Operand reads of the Decode stage (40_pipeline.md R105, R111). -/

namespace Sys2Proof.Machine

/-- `readOperand(i, fpc)` (40_pipeline.md R105): as `x[i]`, except that index 8 reads the instruction's own fetch-time
PC. `none` outside 0..9, which the range checks exclude. -/
def readOperand (s : State) (i : Nat) (fpc : Word) : Option DWord :=
  if i = 8 then some (sext32 fpc) else s.readReg i

/-- The source-2 operand `b` (40_pipeline.md R111 step 3): the sign-extended literal or a register read. -/
def readSource2 (s : State) (src2 : Src2) (fpc : Word) : Option DWord :=
  match src2 with
  | .imm v => some (sext16 v)
  | .reg i =>
    match src2Index i with
    | some k => readOperand s k fpc
    | none => none

end Sys2Proof.Machine
end

