-- ==== Sys2Proof/Machine/Pipeline.lean ====
section
/-! DEFINITION. The stage functions (40_pipeline.md R110 to R122) and one clock cycle of the orchestrator (R131). Each
step of a cycle reads the slot its predecessor wrote in the previous cycle; a step that raises ends the cycle
(R132). A step that finds an error in its predecessor's slot raises it again in its own: a running core never has one
there (notes/assumptions/7.md). -/

namespace Sys2Proof.Machine

/-! ## Write-back (step 1) -/

/-- The write-back multiplexer (40_pipeline.md R122): the memory result or the ALU result. `none` where the selector
takes a memory result that is absent, which no latch of a run holds (notes/assumptions/6.md). -/
def writeBackValue (p : MPayload) : Option DWord :=
  if p.ctl.wbSrc = .mem then p.md else some p.res

/-- Write-back of a full Memory latch (40_pipeline.md R122): nothing without `regWrite`; InvalidReg for a destination
outside 0..9 (never in a run); else the accessor's write, recorded in `Lw` with the value the register then holds. -/
def writeBack (s : State) (p : MPayload) : State :=
  if p.ctl.regWrite = false then
    { s with lw := .full { op := p.op, rd := p.rd, fpc := p.fpc, wrote := false, value := 0 } }
  else
    match writeBackValue p with
    | none => { s with lw := .full { op := p.op, rd := p.rd, fpc := p.fpc, wrote := false, value := 0 } }
    | some v =>
      match s.writeReg p.rd v with
      | none => s.raise .invalidReg .writeBack p.fpc
      | some t =>
        match t.readReg p.rd with
        | none => s.raise .invalidReg .writeBack p.fpc
        | some x => { t with lw := .full { op := p.op, rd := p.rd, fpc := p.fpc, wrote := true, value := x } }

/-- Step 1 of a cycle: Write-back consumes the Memory latch (40_pipeline.md R131). -/
def writeBackStep (s : State) : State :=
  match s.lm with
  | .empty => { s with lw := .empty }
  | .full p => writeBack s p
  | .fault e => s.haltAt .writeBack e

/-! ## Memory-access (step 2) -/

/-- Memory-access of a full Execute latch (40_pipeline.md R119): the ALU result, untruncated, is the address. -/
def memAccess (s : State) (p : EPayload) : State :=
  if (p.ctl.memRead || p.ctl.memWrite) && !inBounds s.par p.res.toInt then
    s.raise .segfault .memory p.fpc
  else
    let addr := p.res.toInt.toNat
    { s with
      mem := if p.ctl.memWrite then s.mem.writeWord addr (trunc32 p.sd) else s.mem
      lm := .full
        { op := p.op, ctl := p.ctl, rd := p.rd, res := p.res, fpc := p.fpc
          md := if p.ctl.memRead then some (sext32 (s.mem.readWord addr)) else none } }

/-- Step 2 of a cycle: Memory-access consumes the Execute latch (40_pipeline.md R131). -/
def memAccessStep (s : State) : State :=
  match s.le with
  | .empty => { s with lm := .empty }
  | .full p => memAccess s p
  | .fault e => s.haltAt .memory e

/-! ## Execute (step 3) -/

/-- Execute of a full Decode latch (40_pipeline.md R116, R117): the ALU result goes into the Execute latch, and a taken
branch writes it to PC and requests the flush. FLAG is read as it is after this cycle's Write-back. Never an error. -/
def execute (s : State) (p : DPayload) : State :=
  let res := alu p.ctl.aluOp p.a p.b
  let t := { s with le := .full { op := p.op, ctl := p.ctl, rd := p.rd, sd := p.sd, fpc := p.fpc, res := res } }
  if p.ctl.branch && taken p.op s.flag then { t with pc := trunc32 res, flush := true } else t

/-- Step 3 of a cycle: Execute consumes the Decode latch (40_pipeline.md R131). -/
def executeStep (s : State) : State :=
  match s.ld with
  | .empty => { s with le := .empty }
  | .full p => execute s p
  | .fault e => s.haltAt .execute e

/-! ## Decode (step 4) -/

/-- What Decode hands on for an instruction: the carried mnemonic, the raw fields the range checks are made on, the
source-2 field, and the control-signal unit's tuple and roles (40_pipeline.md R100, R111). `hazard` is the request for
stall and bubble-next (R114). -/
structure Issue where
  op : Mnemonic
  rd : BitVec 4
  rs1 : BitVec 4
  src2 : Src2
  ctl : Ctrl
  roles : Roles
  hazard : Bool
deriving DecidableEq, Repr

/-- The error a failed check of Decode raises (30_encoding.md R76, 60_exceptions.md R201, R202). -/
def decodeFaultCode : DecodeError → FaultCode
  | .invalidOpcode => .invalidOpcode
  | .invalidRd => .invalidReg
  | .invalidRs1 => .invalidReg
  | .invalidSrc2 => .invalidReg

/-- A Decode whose checks fail: the error in its own slot, no latch value, no hazard request (40_pipeline.md R115). -/
def decodeFails (err : DecodeError) (fpc : Word) (s : State) : State :=
  s.raise (decodeFaultCode err) .decode fpc

/-- Decode of an instruction fetched from `fpc` (40_pipeline.md R111): the range checks on the raw fields, then the
operand reads, among them the store data, and the Decode latch. Decode writes no register (R113). -/
def issue (i : Issue) (fpc : Word) (s : State) : State :=
  match operandError i.rd i.rs1 i.src2 with
  | some err => decodeFails err fpc s
  | none =>
    match readOperand s i.roles.src1 fpc, readSource2 s i.src2 fpc, readOperand s i.roles.dest fpc with
    | some a, some b, some sd =>
      { s with
        ld := .full { op := i.op, ctl := i.ctl, rd := i.roles.dest, a := a, b := b, sd := sd, fpc := fpc }
        stall := i.hazard
        bubbleNext := i.hazard }
    | _, _, _ => s.raise .invalidReg .decode fpc

/-- Step 4 of a cycle (40_pipeline.md R131): a flush or a bubble empties the Decode latch without decoding
(R126, R129); else Decode consumes the Fetch latch. `decodeOne` is what Decode does with the word fetched from a
given address. -/
def decodeStep (bubbleNow : Bool) (decodeOne : Word → State → State) (s : State) : State :=
  if s.flush then { s with ld := .empty }
  else if bubbleNow then { s with ld := .empty }
  else
    match s.lf with
    | .empty => { s with ld := .empty }
    | .full p => decodeOne p.fpc s
    | .fault e => s.haltAt .decode e

/-! ## Fetch (step 5) -/

/-- Fetch (40_pipeline.md R110): the word at PC into the Fetch latch, PC past it. A fault leaves PC as it is. -/
def fetch (s : State) : State :=
  if inBounds s.par s.pc.toInt then
    { s with lf := .full { word := s.mem.readWord s.pc.toInt.toNat, fpc := s.pc }, pc := s.pc + 4 }
  else s.raise .segfault .fetch s.pc

/-- Step 5 of a cycle (40_pipeline.md R131): a flush empties the Fetch latch without fetching (R129); a stall keeps the
Fetch latch and PC (R126). -/
def fetchStep (stallNow : Bool) (s : State) : State :=
  if s.flush then { s with lf := .empty }
  else if stallNow then s
  else fetch s

/-! ## One clock cycle -/

/-- Step 0 of a cycle: the hazard flags are cleared, their values having been taken (40_pipeline.md R131). -/
def State.clearHazards (s : State) : State := { s with stall := false, bubbleNext := false, flush := false }

/-- Steps 0 to 3 of a cycle: what the older instructions do, before Decode (40_pipeline.md R131). -/
def olderStages (s : State) : State :=
  ((writeBackStep s.clearHazards).andThen memAccessStep).andThen executeStep

/-- `Cycle(s)` (40_pipeline.md R131) with `decodeOne` as what Decode does with the word in the Fetch latch. -/
def cycle (decodeOne : Word → State → State) (s : State) : State :=
  ((olderStages s).andThen (decodeStep s.bubbleNext decodeOne)).andThen (fetchStep s.stall)

/-- `clock_cycle` (40_pipeline.md R134): `Cycle` while the status is Running; on a halted processor it is refused,
changes nothing and answers the error again. A running core with arguments that 00_scope.md R6 does not allow is none
the spec describes, and is refused (93_implementation_defined.md I14, notes/assumptions/10.md). -/
def clockCycle (decodeOne : Word → State → State) (s : State) : Host.Outcome State Fault Refusal :=
  match s.status with
  | .running => if s.par.Wf then .next (cycle decodeOne s) else .refused .unsupportedArguments
  | .halted e => .fault (.halted e)

/-- A cycle whose Decode has no instruction to decode (40_pipeline.md R111: an Empty Fetch latch gives an Empty Decode
latch). -/
def clockIdle (s : State) : Host.Outcome State Fault Refusal := clockCycle (fun _ t => t) s

/-- A cycle at whose Decode stands a word that is no instruction (40_pipeline.md R111 step 1). -/
def clockInvalid (err : DecodeError) (s : State) : Host.Outcome State Fault Refusal := clockCycle (decodeFails err) s

end Sys2Proof.Machine
end

