-- ==== Sys2Proof/Machine/AluOps.lean ====
section
/-! DEFINITION. The meanings of ADD, SUB, AND, OR, XOR and MOV (42_alu_ops.md): the clock cycle in which the instruction
stands at Decode, its latch carrying the signals for the ALU and for Write-back (notes/assumptions/4.md). -/

namespace Sys2Proof.Machine

/-- R171 ADD: `x[rd] <- trunc_64(x[rs1] + s2)`. -/
def execAdd (rd rs1 : BitVec 4) (src2 : Src2) (s : State) : Host.Outcome State Fault Refusal :=
  clockCycle
    (issue
      { op := .add, rd := rd, rs1 := rs1, src2 := src2
        ctl := signalsFor .add, roles := plainRoles rd rs1, hazard := false }) s

/-- R172 SUB: `x[rd] <- trunc_64(x[rs1] - s2)`. -/
def execSub (rd rs1 : BitVec 4) (src2 : Src2) (s : State) : Host.Outcome State Fault Refusal :=
  clockCycle
    (issue
      { op := .sub, rd := rd, rs1 := rs1, src2 := src2
        ctl := signalsFor .sub, roles := plainRoles rd rs1, hazard := false }) s

/-- R173 AND: `x[rd] <- x[rs1] & s2`. -/
def execAnd (rd rs1 : BitVec 4) (src2 : Src2) (s : State) : Host.Outcome State Fault Refusal :=
  clockCycle
    (issue
      { op := .and, rd := rd, rs1 := rs1, src2 := src2
        ctl := signalsFor .and, roles := plainRoles rd rs1, hazard := false }) s

/-- R174 OR: `x[rd] <- x[rs1] | s2`. -/
def execOr (rd rs1 : BitVec 4) (src2 : Src2) (s : State) : Host.Outcome State Fault Refusal :=
  clockCycle
    (issue
      { op := .or, rd := rd, rs1 := rs1, src2 := src2
        ctl := signalsFor .or, roles := plainRoles rd rs1, hazard := false }) s

/-- R175 XOR: `x[rd] <- x[rs1] ^ s2`. -/
def execXor (rd rs1 : BitVec 4) (src2 : Src2) (s : State) : Host.Outcome State Fault Refusal :=
  clockCycle
    (issue
      { op := .xor, rd := rd, rs1 := rs1, src2 := src2
        ctl := signalsFor .xor, roles := plainRoles rd rs1, hazard := false }) s

/-- R176 MOV: `x[rd] <- s2`, by the ALU's PASS. The raw `rs1` is ignored, but must be 0..9. -/
def execMov (rd rs1 : BitVec 4) (src2 : Src2) (s : State) : Host.Outcome State Fault Refusal :=
  clockCycle
    (issue
      { op := .mov, rd := rd, rs1 := rs1, src2 := src2
        ctl := signalsFor .mov, roles := plainRoles rd rs1, hazard := false }) s

end Sys2Proof.Machine
end

