-- ==== Sys2Proof/Machine/CompareBranch.lean ====
section
/-! DEFINITION. The meanings of CMP, BRN, BEQ and BNE (43_compare_branch.md): the clock cycle in which the instruction
stands at Decode, its latch carrying the signals for the ALU, for the branch test in Execute and for Write-back
(notes/assumptions/4.md). -/

namespace Sys2Proof.Machine

/-- R180 CMP: `FLAG <- x[rd] - s2`, and the request for stall and bubble-next (40_pipeline.md R114). -/
def execCmp (rd rs1 : BitVec 4) (src2 : Src2) (s : State) : Host.Outcome State Fault Refusal :=
  clockCycle
    (issue
      { op := .cmp, rd := rd, rs1 := rs1, src2 := src2
        ctl := signalsFor .cmp, roles := flagRoles rd rs1, hazard := true }) s

/-- R181 BRN: `PC <- x[rd] + s2` always, in Execute, with a flush (R184). -/
def execBrn (rd rs1 : BitVec 4) (src2 : Src2) (s : State) : Host.Outcome State Fault Refusal :=
  clockCycle
    (issue
      { op := .brn, rd := rd, rs1 := rs1, src2 := src2
        ctl := signalsFor .brn, roles := flagRoles rd rs1, hazard := false }) s

/-- R182 BEQ: `PC <- x[rd] + s2` in Execute, with a flush, when FLAG is then 0. -/
def execBeq (rd rs1 : BitVec 4) (src2 : Src2) (s : State) : Host.Outcome State Fault Refusal :=
  clockCycle
    (issue
      { op := .beq, rd := rd, rs1 := rs1, src2 := src2
        ctl := signalsFor .beq, roles := flagRoles rd rs1, hazard := false }) s

/-- R183 BNE: `PC <- x[rd] + s2` in Execute, with a flush, when FLAG is then not 0. -/
def execBne (rd rs1 : BitVec 4) (src2 : Src2) (s : State) : Host.Outcome State Fault Refusal :=
  clockCycle
    (issue
      { op := .bne, rd := rd, rs1 := rs1, src2 := src2
        ctl := signalsFor .bne, roles := flagRoles rd rs1, hazard := false }) s

end Sys2Proof.Machine
end

