-- ==== Sys2Proof/Machine/LoadStore.lean ====
section
/-! DEFINITION. The meanings of LOAD and STORE (41_load_store.md). The meaning of an instruction is the clock cycle in
which it stands at Decode: its operands are read and its Decode latch is made by `issue`. The latch carries the control
signals by which `execute`, `memAccess` and `writeBack` do the rest of it in the three cycles after
(notes/assumptions/4.md). -/

namespace Sys2Proof.Machine

/-- R160 LOAD: address `x[rs1] + s2` by the ALU, the word there read in Memory-access, sign-extended, and written to
`rd` in Write-back. -/
def execLoad (rd rs1 : BitVec 4) (src2 : Src2) (s : State) : Host.Outcome State Fault Refusal :=
  clockCycle
    (issue
      { op := .load, rd := rd, rs1 := rs1, src2 := src2
        ctl := signalsFor .load, roles := plainRoles rd rs1, hazard := false }) s

/-- R161 STORE: address `x[rs1] + s2` by the ALU, and the low 32 bits of `x[rd]`, read in Decode, written there in
Memory-access. No register is written. -/
def execStore (rd rs1 : BitVec 4) (src2 : Src2) (s : State) : Host.Outcome State Fault Refusal :=
  clockCycle
    (issue
      { op := .store, rd := rd, rs1 := rs1, src2 := src2
        ctl := signalsFor .store, roles := plainRoles rd rs1, hazard := false }) s

end Sys2Proof.Machine
end

