-- ==== Sys2Proof/Machine/Dispatch.lean ====
section
/-! DEFINITION. One arm per instruction. -/

namespace Sys2Proof.Machine

def exec (i : Instr) (s : State) : Host.Outcome State Fault Refusal :=
  match i with
  | .load rd rs1 src2 => Sys2Proof.Machine.execLoad rd rs1 src2 s
  | .store rd rs1 src2 => Sys2Proof.Machine.execStore rd rs1 src2 s
  | .add rd rs1 src2 => Sys2Proof.Machine.execAdd rd rs1 src2 s
  | .sub rd rs1 src2 => Sys2Proof.Machine.execSub rd rs1 src2 s
  | .and rd rs1 src2 => Sys2Proof.Machine.execAnd rd rs1 src2 s
  | .or rd rs1 src2 => Sys2Proof.Machine.execOr rd rs1 src2 s
  | .xor rd rs1 src2 => Sys2Proof.Machine.execXor rd rs1 src2 s
  | .mov rd rs1 src2 => Sys2Proof.Machine.execMov rd rs1 src2 s
  | .cmp rd rs1 src2 => Sys2Proof.Machine.execCmp rd rs1 src2 s
  | .brn rd rs1 src2 => Sys2Proof.Machine.execBrn rd rs1 src2 s
  | .beq rd rs1 src2 => Sys2Proof.Machine.execBeq rd rs1 src2 s
  | .bne rd rs1 src2 => Sys2Proof.Machine.execBne rd rs1 src2 s

end Sys2Proof.Machine
end

