-- ==== Sys2Proof/Machine/HostPort.lean ====
section
/-! DEFINITION. What the host does: making a processor over an allocated region (20_memory.md R67, 40_pipeline.md R136),
and between cycles the register accessor, the memory contract and the exit code (R137, R139). No step calls these; the
host may use them only between cycles. -/

namespace Sys2Proof.Machine

/-- The contents are those of the region: in the canonical form, and of no byte outside it (20_memory.md R50). -/
abbrev Memory.Within (m : Memory) (p : Config.Params) : Prop :=
  m.wf = true ∧ ∀ c ∈ m, p.lb ≤ c.1 ∧ c.1 < p.ub

/-- `new(memory_handle)` (40_pipeline.md R136) over what `allocate` gave the host (20_memory.md R67): a region with its
contents, or null. The core never calls `allocate`, and what it gives is the host's. An allocation that failed and a
region that 00_scope.md R6 does not allow are refused (93_implementation_defined.md I14). -/
def newProcessor (par : Config.Params) (handle : Option Memory) : Except Refusal State :=
  match handle with
  | none => .error .noRegion
  | some image => if par.Wf ∧ image.Within par then .ok (State.new par image) else .error .unsupportedArguments

/-- `readReg(i)` of the host (40_pipeline.md R137): the live value as a signed number, InvalidReg outside 0..9. -/
def hostReadReg (s : State) (i : Int) : Except FaultCode Int :=
  if 0 ≤ i then
    match s.readReg i.toNat with
    | some v => .ok v.toInt
    | none => .error .invalidReg
  else .error .invalidReg

/-- `writeReg(i, v)` of the host, `v` any integer (40_pipeline.md R137, 10_state.md R27): InvalidReg outside 0..9, the
state then being unchanged. A write to index 8 moves the next Fetch and no latch. -/
def hostWriteReg (s : State) (i v : Int) : Except FaultCode State :=
  if 0 ≤ i then
    match s.writeReg i.toNat (BitVec.ofInt 64 v) with
    | some t => .ok t
    | none => .error .invalidReg
  else .error .invalidReg

/-- Whether `n` bytes from `a` on all lie in `[P_LB, P_UB)` (20_memory.md R50). -/
def rangeInside (p : Config.Params) (a : Int) (n : Nat) : Bool :=
  decide ((p.lb : Int) ≤ a) && decide (a + n ≤ (p.ub : Int))

/-- `n` bytes from an address on. -/
def Memory.readBytes (m : Memory) (a : Nat) : Nat → List Byte
  | 0 => []
  | n + 1 => m.byteAt a :: Memory.readBytes m (a + 1) n

/-- Write bytes from an address on. -/
def Memory.writeBytes (m : Memory) (a : Nat) : List Byte → Memory
  | [] => m
  | b :: bs => Memory.writeBytes (m.setByte a b) (a + 1) bs

/-- A host read of a range of the region between cycles (40_pipeline.md R139). The error is the bounds check's
(notes/assumptions/11.md). -/
def hostReadBytes (s : State) (a : Int) (n : Nat) : Except FaultCode (List Byte) :=
  if rangeInside s.par a n then .ok (s.mem.readBytes a.toNat n) else .error .segfault

/-- A host write of a range of the region between cycles (40_pipeline.md R139), before `new` or after
(notes/assumptions/11.md). -/
def hostWriteBytes (s : State) (a : Int) (bs : List Byte) : Except FaultCode State :=
  if rangeInside s.par a bs.length then .ok { s with mem := s.mem.writeBytes a.toNat bs } else .error .segfault

/-- The code of a halted processor's error, what `run` returns (40_pipeline.md R138, 60_exceptions.md R204). -/
def State.exitCode (s : State) : Option Int :=
  match s.status with
  | .running => none
  | .halted e => some e.code.exitCode

end Sys2Proof.Machine
end

