-- ==== Sys2Proof/Machine/Step.lean ====
section
/-! DEFINITION. One step of the machine is one clock cycle (00_scope.md R3, 40_pipeline.md R134); `run` with fuel; and
the placing of one instruction for the next step. -/

namespace Sys2Proof.Machine

/-- One call of `clock_cycle` (40_pipeline.md R131, R134). The word in the Fetch latch is decoded under the given opcode
map, and the cycle is the meaning of the instruction it stands for; Decode comes to act on it only where the cycle is
neither a flush nor a bubble cycle. -/
def step (s : State) : Host.Outcome State Fault Refusal :=
  match s.lf with
  | .full p =>
    match decodeWord s.par.opcodeMap p.word with
    | .ok i => exec i s
    | .error err => clockInvalid err s
  | _ => clockIdle s

/-- `run` (40_pipeline.md R138) with a bound on the number of cycles: the exit code of a processor that halts within
the bound. `none` says that it did not halt within it, which is no fault (60_exceptions.md R210). -/
def run : Nat → State → Option Int
  | 0, s => s.exitCode
  | n + 1, s =>
    match s.exitCode with
    | some c => some c
    | none =>
      match step s with
      | .next t => run n t
      | _ => none

/-- `s` with one instruction (`nbits` bits `w`, a 32-bit word) at Decode's input, so that the very next step decodes
and runs it: what a Fetch at PC would have left, the word being in memory at PC, in the Fetch latch with PC as its
fetch-time PC, and PC past it. The older stages are empty and no hazard flag is up, since an older branch or CMP would
keep Decode from it (notes/assumptions/5.md). -/
def State.withFetchWord (s : State) (nbits w : Nat) : State :=
  let word : Word := BitVec.ofNat 32 (w % 2 ^ nbits)
  { s with
    mem := if inBounds s.par s.pc.toInt then s.mem.writeWord s.pc.toInt.toNat word else s.mem
    lf := .full { word := word, fpc := s.pc }
    pc := s.pc + 4
    ld := .empty
    le := .empty
    lm := .empty
    stall := false
    bubbleNext := false
    flush := false }

end Sys2Proof.Machine
end

