-- ==== Sys2Proof/Safety.lean ====
section
/-! DEFINITION. The terms claims are stated in: the invariant of the core, states in which an instruction stands at
Decode, and what a cycle may leave alone. -/

namespace Sys2Proof.Machine

/-! ## The invariant -/

/-- The mnemonics whose operands the control-signal unit normalizes (40_pipeline.md R102, R103). -/
def remapped (m : Mnemonic) : Bool := m = .cmp || m = .brn || m = .beq || m = .bne

/-- What a latch behind Decode carries of an instruction: its own control signals (10_state.md R31: "derived once per
instruction in Decode; carried unchanged"), a register index (R29), and FLAG's index for CMP and the branches. -/
structure CarriedOk (op : Mnemonic) (ctl : Ctrl) (rd : Nat) : Prop where
  ctl_eq : ctl = signalsFor op
  rd_le : rd ≤ 9
  dest_eq : remapped op = true → rd = 9

/-- A property of an instruction in a slot, if there is one. -/
def Latch.All {α : Type} (P : α → Prop) : Latch α → Prop
  | .full p => P p
  | _ => True

/-- The slot holds no error. -/
def Latch.clean {α : Type} : Latch α → Bool
  | .fault _ => false
  | _ => true

/-- No slot holds an error. -/
def State.clean (s : State) : Bool := s.lf.clean && s.ld.clean && s.le.clean && s.lm.clean && s.lw.clean

/-- Exactly the slot of the stage that raised `e` holds it (40_pipeline.md R132), and that stage is one of the three
that can raise (R133: Execute never fails, Write-back's check never fires). -/
def State.faultedAt (s : State) (e : ErrorRecord) : Prop :=
  match e.stage with
  | .fetch => s.lf = .fault e ∧ s.ld.clean ∧ s.le.clean ∧ s.lm.clean ∧ s.lw.clean
  | .decode => s.lf.clean ∧ s.ld = .fault e ∧ s.le.clean ∧ s.lm.clean ∧ s.lw.clean
  | .memory => s.lf.clean ∧ s.ld.clean ∧ s.le.clean ∧ s.lm = .fault e ∧ s.lw.clean
  | .execute => False
  | .writeBack => False

/-- The invariant of the core. -/
structure Inv (s : State) : Prop where
  /-- the arguments are as 00_scope.md R6 asks -/
  par : s.par.Wf
  /-- the memory has its canonical form -/
  mem : s.mem.wf = true
  /-- no byte outside the region is listed (20_memory.md R50) -/
  region : ∀ c ∈ s.mem, s.par.lb ≤ c.1 ∧ c.1 < s.par.ub
  /-- a fetched word was in bounds (40_pipeline.md R110) -/
  lf : s.lf.All fun p => inBounds s.par p.fpc.toInt = true
  ld : s.ld.All fun p => CarriedOk p.op p.ctl p.rd
  le : s.le.All fun p => CarriedOk p.op p.ctl p.rd
  /-- `md` is "present only if ctl.memRead" (10_state.md R29), and then it is present -/
  lm : s.lm.All fun p => CarriedOk p.op p.ctl p.rd ∧ p.md.isSome = p.ctl.memRead
  /-- `stall` and `bubble_next` are set and cleared together (10_state.md R32) -/
  hazards : s.stall = s.bubbleNext
  /-- only a decoded CMP stalls (43_compare_branch.md R180) -/
  stalled : s.stall = true → ∃ p, s.ld = .full p ∧ p.op = .cmp
  /-- and while the core runs a CMP in the Decode latch has its bubble pending (40_pipeline.md R126) -/
  pending : s.status = .running → ∀ p, s.ld = .full p → p.op = .cmp → s.stall = true
  /-- after a flush the two upstream slots are empty (40_pipeline.md R129) -/
  flushed : s.flush = true → s.lf = .empty ∧ s.ld = .empty
  /-- a running core holds no error (40_pipeline.md R132) -/
  running : s.status = .running → s.clean = true
  halted : ∀ e, s.status = .halted e → s.faultedAt e

/-! ## Several cycles -/

/-- The state `n` cycles later, if the clock is refused in none of them. -/
def State.after : Nat → State → Option State
  | 0, s => some s
  | n + 1, s =>
    match step s with
    | .next t => State.after n t
    | _ => none

/-! ## An instruction at Decode -/

/-- The word `w`, fetched from `fpc`, stands at Decode's input and this cycle decodes it: the core runs, over arguments
that 00_scope.md R6 allows, no bubble is pending, no older instruction faults this cycle and no branch in Execute is
taken. -/
structure AtDecode (s : State) (w fpc : Word) : Prop where
  par : s.par.Wf
  running : s.status = .running
  lf : s.lf = .full { word := w, fpc := fpc }
  bubble : s.bubbleNext = false
  older : (olderStages s).status = .running
  noFlush : (olderStages s).flush = false

/-- As `AtDecode`, and this cycle's Fetch raises no error either. -/
structure Ready (s : State) (w fpc : Word) : Prop extends AtDecode s w fpc where
  fetch : s.stall = true ∨ inBounds s.par (olderStages s).pc.toInt = true

/-- As `Ready`, with nothing else in the pipeline: the three latches behind Decode are empty. -/
structure Quiet (s : State) (w fpc : Word) : Prop where
  par : s.par.Wf
  running : s.status = .running
  lf : s.lf = .full { word := w, fpc := fpc }
  ld : s.ld = .empty
  le : s.le = .empty
  lm : s.lm = .empty
  stall : s.stall = false
  bubble : s.bubbleNext = false
  fetch : inBounds s.par s.pc.toInt = true

/-- The normalized source-1 index (40_pipeline.md R102, R103). -/
def normSrc1 (i : Instr) : Nat := if remapped i.mnemonic then i.rd.toNat else i.rs1.toNat

/-- The normalized destination index (40_pipeline.md R102, R103). -/
def normDest (i : Instr) : Nat := if remapped i.mnemonic then 9 else i.rd.toNat

/-! ## What a cycle leaves alone -/

/-- The general registers and FLAG are the same. -/
structure SameRegs (t s : State) : Prop where
  regs : ∀ k (h : k < 8), t.regs[k] = s.regs[k]
  flag : t.flag = s.flag

/-- The general registers, FLAG and every byte of memory are the same. -/
structure SameData (t s : State) : Prop extends SameRegs t s where
  mem : ∀ x, t.mem.byteAt x = s.mem.byteAt x

/-- Write-back of `v` to the register `rd` of the instruction `op` fetched from `fpc` has been done, `s` being the state
before: the destination holds `v` at its width (00_scope.md R9), every other general register and FLAG are as they
were, and the Write-back latch records the write (40_pipeline.md R122). For `rd` = 8 the record is what says that PC
was written: later steps of the same cycle may move PC on. -/
structure WroteBack (t s : State) (op : Mnemonic) (rd : Nat) (fpc : Word) (v : DWord) : Prop where
  regs : ∀ k (h : k < 8), t.regs[k] = if k = rd then trunc32 v else s.regs[k]
  flag : t.flag = if rd = 9 then v else s.flag
  lw : t.lw = .full
    { op := op, rd := rd, fpc := fpc, wrote := true, value := if rd = 9 then v else sext32 (trunc32 v) }

end Sys2Proof.Machine
end

