-- ==== Sys2Proof/Certificates/Slice0/Obligations.lean ====
section
/-! DEFINITION. The statements for the provers. Each docstring names the rules of spec/ it comes from. -/

open Sys2Proof Sys2Proof.Machine

/-! ## Encoding -/

/-- 30_encoding.md R71, R76, R79: the decoder reads back every well-formed instruction from its encoding, under every
opcode map. -/
def Obligations.DecodeOfEncodeIsTheInstruction : Prop :=
  ∀ (map : List Mnemonic) (i : Instr), Config.OpcodeMapWf map → i.wf = true →
    decodeWord map (encode map i) = .ok i ∧
    ∀ rest : List Byte, decodeBytes map (encodeBytes map i ++ rest) = .ok (i, rest)

/-- 30_encoding.md R76, R77, R79: a word that decodes is the encoding of the instruction it decodes to, and that
instruction is well formed. With it no two words are one instruction and no bit of a word is ignored. -/
def Obligations.DecodedWordIsItsEncoding : Prop :=
  ∀ (map : List Mnemonic) (w : Word) (i : Instr), Config.OpcodeMapWf map → decodeWord map w = .ok i →
    i.wf = true ∧ encode map i = w

/-- 30_encoding.md R79: the encoding function as a number, and its bytes most significant first. -/
def Obligations.EncodingFormula : Prop :=
  ∀ (op : BitVec 7) (imm : BitVec 1) (rd rs1 : BitVec 4) (src2 : Int), -32768 ≤ src2 → src2 ≤ 32767 →
    let w := encodeFields op imm rd rs1 (BitVec.ofInt 16 src2)
    (w.toNat : Int) =
      op.toNat * 2 ^ 25 + imm.toNat * 2 ^ 24 + rd.toNat * 2 ^ 20 + rs1.toNat * 2 ^ 16 + src2 % 2 ^ 16 ∧
    (bytesOfWord w).map BitVec.toNat =
      [w.toNat / 2 ^ 24, w.toNat / 2 ^ 16 % 256, w.toNat / 2 ^ 8 % 256, w.toNat % 256] ∧
    fieldOp w = op ∧ fieldImm w = imm ∧ fieldRd w = rd ∧ fieldRs1 w = rs1 ∧ (fieldSrc2 w).toInt = src2

/-- 30_encoding.md R76, 60_exceptions.md R205: the checks in their order, the first that fails giving the error, and no
other ground to refuse a word. -/
def Obligations.DecodeChecksInOrder : Prop :=
  ∀ (map : List Mnemonic) (w : Word), Config.OpcodeMapWf map →
    (12 ≤ (fieldOp w).toNat → decodeWord map w = .error .invalidOpcode) ∧
    ((fieldOp w).toNat < 12 → 10 ≤ (fieldRd w).toNat → decodeWord map w = .error .invalidRd) ∧
    ((fieldOp w).toNat < 12 → (fieldRd w).toNat < 10 → 10 ≤ (fieldRs1 w).toNat →
      decodeWord map w = .error .invalidRs1) ∧
    ((fieldOp w).toNat < 12 → (fieldRd w).toNat < 10 → (fieldRs1 w).toNat < 10 → fieldImm w = 0 →
      ((fieldSrc2 w).toInt < 0 ∨ 9 < (fieldSrc2 w).toInt) → decodeWord map w = .error .invalidSrc2) ∧
    ((fieldOp w).toNat < 12 → (fieldRd w).toNat < 10 → (fieldRs1 w).toNat < 10 →
      (fieldImm w = 1 ∨ (0 ≤ (fieldSrc2 w).toInt ∧ (fieldSrc2 w).toInt ≤ 9)) →
      ∃ m i, map[(fieldOp w).toNat]? = some m ∧ decodeWord map w = .ok i ∧ i.mnemonic = m ∧
        i.rd = fieldRd w ∧ i.rs1 = fieldRs1 w ∧
        i.src2 = if fieldImm w = 1 then Src2.imm (fieldSrc2 w) else Src2.reg (fieldSrc2 w))

/-- Words written out from 30_encoding.md R71 and R74 (the examples of R82 and R83, and one word of each other
mnemonic from the rules R160 to R183) decode, under the default opcode map, to the instructions they stand for. -/
def Obligations.SampleWordsDecode : Prop :=
  decodeWord Config.defaultOpcodeMap 0x00000000 = .ok (.load 0 0 (.reg 0)) ∧
  decodeWord Config.defaultOpcodeMap 0x01120004 = .ok (.load 1 2 (.imm 4)) ∧
  decodeWord Config.defaultOpcodeMap 0x03300000 = .ok (.store 3 0 (.imm 0)) ∧
  decodeWord Config.defaultOpcodeMap 0x04310002 = .ok (.add 3 1 (.reg 2)) ∧
  decodeWord Config.defaultOpcodeMap 0x07110001 = .ok (.sub 1 1 (.imm 1)) ∧
  decodeWord Config.defaultOpcodeMap 0x09310F0F = .ok (.and 3 1 (.imm 0x0F0F)) ∧
  decodeWord Config.defaultOpcodeMap 0x0B208000 = .ok (.or 2 0 (.imm 0x8000)) ∧
  decodeWord Config.defaultOpcodeMap 0x0C110001 = .ok (.xor 1 1 (.reg 1)) ∧
  decodeWord Config.defaultOpcodeMap 0x0E200009 = .ok (.mov 2 0 (.reg 9)) ∧
  decodeWord Config.defaultOpcodeMap 0x11100003 = .ok (.cmp 1 0 (.imm 3)) ∧
  decodeWord Config.defaultOpcodeMap 0x1380000C = .ok (.brn 8 0 (.imm 12)) ∧
  decodeWord Config.defaultOpcodeMap 0x1580FFFC = .ok (.beq 8 0 (.imm 0xFFFC)) ∧
  decodeWord Config.defaultOpcodeMap 0x17800008 = .ok (.bne 8 0 (.imm 8))

/-! ## Steps and instructions -/

/-- 40_pipeline.md R131, R134: when the word at Decode's input stands for an instruction, the step is the meaning of
that instruction: the whole clock cycle, with what the older stages and Fetch do around it. -/
def Obligations.StepRunsTheDecodedInstruction : Prop :=
  ∀ (s : State) (w fpc : Word) (i : Instr), s.lf = .full { word := w, fpc := fpc } →
    decodeWord s.par.opcodeMap w = .ok i → step s = exec i s

/-- 40_pipeline.md R110, 30_encoding.md R70: a cycle that decodes without error, in which Fetch is neither stalled nor
flushed, fetches the four bytes at PC, lowest address most significant; the next step's Decode has them with that PC.
PC and memory are as the older stages of the cycle leave them. -/
def Obligations.CycleFetchesTheWordAtPc : Prop :=
  ∀ (s : State) (i : Instr) (w fpc : Word), Ready s w fpc → s.stall = false → i.wf = true →
    ∃ t, exec i s = .next t ∧
      let u := olderStages s
      let a := u.pc.toInt.toNat
      t.pc = u.pc + 4 ∧
      t.lf = .full
        { word := u.mem.byteAt a ++ u.mem.byteAt (a + 1) ++ u.mem.byteAt (a + 2) ++ u.mem.byteAt (a + 3)
          fpc := u.pc }

/-- 40_pipeline.md R101: the control signals of the twelve mnemonics (regWrite, memRead, memWrite, aluOp, wbSrc,
branch), no mnemonic with a read and a write of memory, and the branch condition by mnemonic. -/
def Obligations.ControlSignalsAreTheTable : Prop :=
  signalsFor .load = ⟨true, true, false, .add, .mem, false⟩ ∧
  signalsFor .store = ⟨false, false, true, .add, .none, false⟩ ∧
  signalsFor .add = ⟨true, false, false, .add, .alu, false⟩ ∧
  signalsFor .sub = ⟨true, false, false, .sub, .alu, false⟩ ∧
  signalsFor .and = ⟨true, false, false, .and, .alu, false⟩ ∧
  signalsFor .or = ⟨true, false, false, .or, .alu, false⟩ ∧
  signalsFor .xor = ⟨true, false, false, .xor, .alu, false⟩ ∧
  signalsFor .mov = ⟨true, false, false, .pass, .alu, false⟩ ∧
  signalsFor .cmp = ⟨true, false, false, .sub, .alu, false⟩ ∧
  signalsFor .brn = ⟨false, false, false, .add, .none, true⟩ ∧
  signalsFor .beq = ⟨false, false, false, .add, .none, true⟩ ∧
  signalsFor .bne = ⟨false, false, false, .add, .none, true⟩ ∧
  (∀ m, ¬((signalsFor m).memRead = true ∧ (signalsFor m).memWrite = true)) ∧
  ∀ f : DWord, taken .brn f = true ∧ (taken .beq f = true ↔ f.toInt = 0) ∧ (taken .bne f = true ↔ f.toInt ≠ 0)

/-- 40_pipeline.md R105 and 30_encoding.md R72, R73: the operand reads of Decode. Index 8 reads the instruction's own
fetch-time PC, whatever PC holds; a literal is sign-extended. -/
def Obligations.OperandReads : Prop :=
  ∀ (s : State) (fpc : Word),
    (∀ k (h : k < 8), readOperand s k fpc = some (s.regs[k].signExtend 64)) ∧
    readOperand s 8 fpc = some (fpc.signExtend 64) ∧
    readOperand s 9 fpc = some s.flag ∧
    (∀ k, 9 < k → readOperand s k fpc = none) ∧
    (∀ v : BitVec 16, readSource2 s (.imm v) fpc = some (v.signExtend 64)) ∧
    (∀ v : BitVec 16, 0 ≤ v.toInt → v.toInt ≤ 9 → readSource2 s (.reg v) fpc = readOperand s v.toNat fpc)

/-- 40_pipeline.md R100 to R103, R105, R111, R114, for each of the twelve instructions in any pipeline: where Decode
gets to act and Fetch raises no error, `exec` answers a running next state whose Decode latch holds the mnemonic, its
control signals, the normalized destination, the three operand values read after this cycle's Write-back, and the
fetch-time PC. Only CMP requests stall and bubble-next. Registers, FLAG, memory and the later latches are as the older
instructions leave them. -/
def Obligations.EveryInstructionIssuesItsLatch : Prop :=
  ∀ (i : Instr) (s : State) (w fpc : Word), Ready s w fpc → i.wf = true →
    ∃ t a b sd, exec i s = .next t ∧ t.status = .running ∧
      readOperand (olderStages s) (normSrc1 i) fpc = some a ∧
      readSource2 (olderStages s) i.src2 fpc = some b ∧
      readOperand (olderStages s) (normDest i) fpc = some sd ∧
      t.ld = .full
        { op := i.mnemonic, ctl := signalsFor i.mnemonic, rd := normDest i, a := a, b := b, sd := sd, fpc := fpc } ∧
      t.stall = decide (i.mnemonic = .cmp) ∧ t.bubbleNext = decide (i.mnemonic = .cmp) ∧ t.flush = false ∧
      SameData t (olderStages s) ∧ t.le = (olderStages s).le ∧ t.lm = (olderStages s).lm ∧ t.lw = (olderStages s).lw

/-- 40_pipeline.md R113, R115: whatever Decode finds and however the cycle ends, the instruction at Decode writes no
register, no FLAG, no byte of memory and no later latch. PC is left to the older stages and to Fetch. -/
def Obligations.DecodeWritesNothing : Prop :=
  ∀ (i : Instr) (s t : State), exec i s = .next t →
    SameData t (olderStages s) ∧ t.le = (olderStages s).le ∧ t.lm = (olderStages s).lm ∧
      t.lw = (olderStages s).lw ∧ t.par = s.par ∧
      (t.pc = (olderStages s).pc ∨ t.pc = (olderStages s).pc + 4)

/-! ## Each instruction from Decode to Write-back

The instruction stands at Decode with nothing before it in the pipeline. `exec` answers `t1`; three more steps, the
younger instructions being whatever memory holds, bring it to Write-back. -/

/-- 42_alu_ops.md R170: the flight of a register-writing ALU instruction whose result is `f a b`. -/
def Sys2Proof.Claims.AluFlight (mk : BitVec 4 → BitVec 4 → Src2 → Instr) (f : DWord → DWord → DWord) : Prop :=
  ∀ (s : State) (w fpc : Word) (rd rs1 : BitVec 4) (src2 : Src2) (a b : DWord),
    Quiet s w fpc → (mk rd rs1 src2).wf = true →
    readOperand s rs1.toNat fpc = some a → readSource2 s src2 fpc = some b →
    ∃ t1, exec (mk rd rs1 src2) s = .next t1 ∧ t1.status = .running ∧ t1.stall = false ∧ SameData t1 s ∧
      ∀ t2 t3 t4, step t1 = .next t2 → step t2 = .next t3 → step t3 = .next t4 →
        SameData t2 s ∧ SameData t3 s ∧
        WroteBack t4 s (mk rd rs1 src2).mnemonic rd.toNat fpc (f a b)

/-- 42_alu_ops.md R170 to R176: ADD, SUB, AND, OR, XOR and MOV complete: the destination, whichever of the ten it is,
takes the 64-bit result at its width in the cycle of Write-back and not before, and nothing else is written. -/
def Obligations.AluInstructionsWriteTheirResult : Prop :=
  Claims.AluFlight .add (fun a b => a + b) ∧
  Claims.AluFlight .sub (fun a b => a - b) ∧
  Claims.AluFlight .and (fun a b => a &&& b) ∧
  Claims.AluFlight .or (fun a b => a ||| b) ∧
  Claims.AluFlight .xor (fun a b => a ^^^ b) ∧
  Claims.AluFlight .mov (fun _ b => b)

/-- 41_load_store.md R160: LOAD of an address in bounds. -/
def Obligations.LoadWritesTheWordLoaded : Prop :=
  ∀ (s : State) (w fpc : Word) (rd rs1 : BitVec 4) (src2 : Src2) (a b : DWord),
    Quiet s w fpc → (Instr.load rd rs1 src2).wf = true →
    readOperand s rs1.toNat fpc = some a → readSource2 s src2 fpc = some b →
    (s.par.lb : Int) ≤ (a + b).toInt → (a + b).toInt + 4 ≤ (s.par.ub : Int) →
    ∃ t1, exec (.load rd rs1 src2) s = .next t1 ∧ t1.status = .running ∧ t1.stall = false ∧ SameData t1 s ∧
      ∀ t2 t3 t4, step t1 = .next t2 → step t2 = .next t3 → step t3 = .next t4 →
        let x := (a + b).toInt.toNat
        SameData t2 s ∧ SameData t3 s ∧
        WroteBack t4 s .load rd.toNat fpc
          ((s.mem.byteAt x ++ s.mem.byteAt (x + 1) ++ s.mem.byteAt (x + 2) ++ s.mem.byteAt (x + 3)).signExtend 64)

/-- 41_load_store.md R161: STORE to an address in bounds. The bytes stored are the low 32 bits of the register read in
Decode, most significant first, at the address the ALU gives; every other byte, every register and FLAG are as they
were. -/
def Obligations.StoreWritesTheWord : Prop :=
  ∀ (s : State) (w fpc : Word) (rd rs1 : BitVec 4) (src2 : Src2) (a b sd : DWord),
    Quiet s w fpc → (Instr.store rd rs1 src2).wf = true →
    readOperand s rs1.toNat fpc = some a → readSource2 s src2 fpc = some b →
    readOperand s rd.toNat fpc = some sd →
    (s.par.lb : Int) ≤ (a + b).toInt → (a + b).toInt + 4 ≤ (s.par.ub : Int) →
    ∃ t1, exec (.store rd rs1 src2) s = .next t1 ∧ t1.status = .running ∧ t1.stall = false ∧ SameData t1 s ∧
      ∀ t2 t3, step t1 = .next t2 → step t2 = .next t3 →
        let x := (a + b).toInt.toNat
        SameData t2 s ∧ SameRegs t3 s ∧
        (∀ y, (y < x ∨ x + 4 ≤ y) → t3.mem.byteAt y = s.mem.byteAt y) ∧
        t3.mem.byteAt x = sd.extractLsb' 24 8 ∧ t3.mem.byteAt (x + 1) = sd.extractLsb' 16 8 ∧
        t3.mem.byteAt (x + 2) = sd.extractLsb' 8 8 ∧ t3.mem.byteAt (x + 3) = sd.extractLsb' 0 8 ∧
        ∀ t4, step t3 = .next t4 → SameRegs t4 s

/-- 41_load_store.md R160, R161, R163 and 20_memory.md R51: a LOAD or STORE whose four bytes are not all in the region
raises Segfault in Memory-access; the address is the signed 64-bit sum, neither truncated nor wrapped. No register and
no byte is written, and no later cycle writes one. -/
def Obligations.OutOfBoundsAccessHalts : Prop :=
  ∀ (i : Instr) (s : State) (w fpc : Word) (rd rs1 : BitVec 4) (src2 : Src2) (a b : DWord),
    (i = .load rd rs1 src2 ∨ i = .store rd rs1 src2) →
    Quiet s w fpc → i.wf = true →
    readOperand s rs1.toNat fpc = some a → readSource2 s src2 fpc = some b →
    ((a + b).toInt < (s.par.lb : Int) ∨ (s.par.ub : Int) < (a + b).toInt + 4) →
    ∃ t1, exec i s = .next t1 ∧
      ∀ t2 t3, step t1 = .next t2 → step t2 = .next t3 →
        let e : ErrorRecord := { code := .segfault, stage := .memory, pc := fpc }
        t3.status = .halted e ∧ t3.lm = .fault e ∧ t3.exitCode = some (-102) ∧ SameData t3 s ∧
        step t3 = .fault (.halted e)

/-- 43_compare_branch.md R180 and 40_pipeline.md R126: CMP requests the bubble, the next cycle decodes and fetches
nothing, and FLAG takes the full 64-bit difference in Write-back. Of two 32-bit operands it is the exact difference, so
its sign and zero-ness are the comparison. No general register and no byte changes. -/
def Obligations.CmpWritesTheDifference : Prop :=
  ∀ (s : State) (w fpc : Word) (rd rs1 : BitVec 4) (src2 : Src2) (a b : DWord),
    Quiet s w fpc → (Instr.cmp rd rs1 src2).wf = true →
    readOperand s rd.toNat fpc = some a → readSource2 s src2 fpc = some b →
    ∃ t1 t2, exec (.cmp rd rs1 src2) s = .next t1 ∧ t1.status = .running ∧
      t1.stall = true ∧ t1.bubbleNext = true ∧ SameData t1 s ∧
      step t1 = .next t2 ∧ t2.status = .running ∧ t2.ld = .empty ∧ t2.lf = t1.lf ∧ t2.pc = t1.pc ∧
      t2.stall = false ∧ t2.bubbleNext = false ∧ SameData t2 s ∧
      ∀ t3 t4, step t2 = .next t3 → step t3 = .next t4 →
        SameData t3 s ∧ WroteBack t4 s .cmp 9 fpc (a - b) ∧ (∀ x, t4.mem.byteAt x = s.mem.byteAt x) ∧
        (∀ x y : Word, a = x.signExtend 64 → b = y.signExtend 64 →
          t4.flag.toInt = x.toInt - y.toInt ∧ (t4.flag.toInt < 0 ↔ x.toInt < y.toInt) ∧ (t4.flag = 0 ↔ x = y))

/-- 43_compare_branch.md R181 to R185: the flight of a branch taken when `cond FLAG`. Taken, it redirects PC in
Execute, drops the word fetched after it whatever that word is, and the next cycle fetches from the target or raises
Segfault there; not taken, PC goes on in sequence. It writes no register, no FLAG and no byte. -/
def Sys2Proof.Claims.BranchFlight (mk : BitVec 4 → BitVec 4 → Src2 → Instr) (cond : DWord → Prop) : Prop :=
  ∀ (s : State) (w fpc : Word) (rd rs1 : BitVec 4) (src2 : Src2) (a b : DWord),
    Quiet s w fpc → (mk rd rs1 src2).wf = true →
    readOperand s rd.toNat fpc = some a → readSource2 s src2 fpc = some b →
    ∃ t1 t2, exec (mk rd rs1 src2) s = .next t1 ∧ t1.status = .running ∧ t1.stall = false ∧ SameData t1 s ∧
      step t1 = .next t2 ∧ SameData t2 s ∧
      (cond s.flag →
        t2.status = .running ∧ t2.flush = true ∧ t2.pc = (a + b).setWidth 32 ∧ t2.lf = .empty ∧ t2.ld = .empty ∧
        ∃ t3, step t2 = .next t3 ∧ SameData t3 s ∧ t3.ld = .empty ∧ t3.flush = false ∧
          (if (s.par.lb : Int) ≤ t2.pc.toInt ∧ t2.pc.toInt + 4 ≤ (s.par.ub : Int) then
            t3.status = .running ∧ t3.pc = t2.pc + 4 ∧
            t3.lf = .full { word := s.mem.readWord t2.pc.toInt.toNat, fpc := t2.pc }
          else t3.pc = t2.pc ∧ t3.status = .halted { code := .segfault, stage := .fetch, pc := t2.pc })) ∧
      (¬cond s.flag →
        t2.flush = false ∧ (t2.status = .running → t2.pc = t1.pc + 4) ∧
        ∀ t3 t4, step t2 = .next t3 → step t3 = .next t4 → SameData t3 s ∧ SameRegs t4 s)

/-- 43_compare_branch.md R181 to R183: BRN is always taken, BEQ when all 64 bits of FLAG are 0, BNE when not; the
target is `x[rd] + s2`, the base of `rd` = 8 being the branch's own address. -/
def Obligations.BranchesRedirectWhenTaken : Prop :=
  Claims.BranchFlight .brn (fun _ => True) ∧
  Claims.BranchFlight .beq (fun f => f.toInt = 0) ∧
  Claims.BranchFlight .bne (fun f => f.toInt ≠ 0)

/-- 70_reset_and_hazards.md R223 and 40_pipeline.md R141: an instruction other than CMP and the branches reaches
Write-back when the three words after it are in bounds and the first two of them decode to instructions that are
neither CMP nor a branch: the three further cycles all run. (Its own access must be in bounds, if it is a LOAD or a
STORE.) -/
def Obligations.DrainedInstructionReachesWriteBack : Prop :=
  ∀ (i i1 i2 : Instr) (s : State) (w fpc : Word) (a b : DWord),
    Quiet s w fpc → i.wf = true → remapped i.mnemonic = false →
    readOperand s i.rs1.toNat fpc = some a → readSource2 s i.src2 fpc = some b →
    ((signalsFor i.mnemonic).memRead = true ∨ (signalsFor i.mnemonic).memWrite = true →
      inBounds s.par (a + b).toInt = true) →
    inBounds s.par (s.pc.toInt + 8) = true →
    decodeWord s.par.opcodeMap (s.mem.readWord s.pc.toInt.toNat) = .ok i1 → remapped i1.mnemonic = false →
    decodeWord s.par.opcodeMap (s.mem.readWord (s.pc.toInt + 4).toNat) = .ok i2 → remapped i2.mnemonic = false →
    ∃ t1 t2 t3 t4, exec i s = .next t1 ∧ step t1 = .next t2 ∧ step t2 = .next t3 ∧ step t3 = .next t4 ∧
      t3.status = .running ∧
      ∃ v, t4.lw = .full
        { op := i.mnemonic, rd := i.rd.toNat, fpc := fpc, wrote := (signalsFor i.mnemonic).regWrite, value := v }

/-- 70_reset_and_hazards.md R223 and 40_pipeline.md R126: CMP reaches Write-back, where it writes FLAG, when the word
after it decodes to an instruction (any one) and the word after that is in bounds. -/
def Obligations.CmpReachesWriteBack : Prop :=
  ∀ (i1 : Instr) (s : State) (w fpc : Word) (rd rs1 : BitVec 4) (src2 : Src2) (a b : DWord),
    Quiet s w fpc → (Instr.cmp rd rs1 src2).wf = true →
    readOperand s rd.toNat fpc = some a → readSource2 s src2 fpc = some b →
    inBounds s.par (s.pc.toInt + 4) = true →
    decodeWord s.par.opcodeMap (s.mem.readWord s.pc.toInt.toNat) = .ok i1 →
    ∃ t1 t2 t3 t4, exec (.cmp rd rs1 src2) s = .next t1 ∧ step t1 = .next t2 ∧ step t2 = .next t3 ∧
      step t3 = .next t4 ∧ t3.status = .running ∧ t4.flag = a - b ∧
      t4.lw = .full { op := .cmp, rd := 9, fpc := fpc, wrote := true, value := a - b }

/-! ## Hazards -/

/-- 70_reset_and_hazards.md R224, R225: no forwarding. Let an instruction that writes register `rd` in Write-back, other
than CMP, stand at Decode with nothing before it. The Decodes of the next two cycles read the registers and FLAG
as they were before it, the third reads its value; Execute, and so a branch's test of FLAG, runs one step earlier in
each cycle and sees FLAG the same. -/
def Obligations.NoForwardingBeforeWriteBack : Prop :=
  ∀ (i : Instr) (s t1 t2 t3 : State) (w fpc : Word),
    Quiet s w fpc → i.wf = true → (signalsFor i.mnemonic).regWrite = true → i.mnemonic ≠ .cmp →
    exec i s = .next t1 → step t1 = .next t2 → step t2 = .next t3 → t3.status = .running →
    SameRegs (olderStages t1) s ∧ SameRegs (olderStages t2) s ∧
    ∃ p v, t3.lm = .full p ∧ p.fpc = fpc ∧ writeBackValue p = some v ∧
      (∀ k (h : k < 8), (olderStages t3).regs[k] = if k = i.rd.toNat then trunc32 v else s.regs[k]) ∧
      (olderStages t3).flag = if i.rd.toNat = 9 then v else s.flag

/-- 40_pipeline.md R126, R128: the cycle after a CMP's Decode leaves the Decode latch empty and takes nothing from
Fetch, whatever word waits in the Fetch latch, even one that is no instruction; the pending flags act in that one cycle
only. -/
def Obligations.CmpIsFollowedByOneBubble : Prop :=
  ∀ (s t u : State) (w fpc : Word) (rd rs1 : BitVec 4) (src2 : Src2),
    AtDecode s w fpc → (Instr.cmp rd rs1 src2).wf = true → exec (.cmp rd rs1 src2) s = .next t →
    step t = .next u → u.status = .running →
    (∃ p, t.ld = .full p ∧ p.op = .cmp ∧ p.rd = 9) ∧ t.stall = true ∧ t.bubbleNext = true ∧
    u.ld = .empty ∧ u.lf = t.lf ∧ u.pc = (olderStages t).pc ∧ u.stall = false ∧ u.bubbleNext = false ∧ u.flush = false

/-- 40_pipeline.md R127: one bubble is enough. A BEQ or BNE right after a CMP tests the FLAG that the CMP writes, in
the same cycle as the CMP's Write-back. -/
def Obligations.BranchAfterCmpSeesTheNewFlag : Prop :=
  ∀ (s t1 t2 t3 t4 : State) (w fpc : Word) (rd rs1 : BitVec 4) (src2 : Src2) (a b : DWord) (br : Instr),
    Quiet s w fpc → (Instr.cmp rd rs1 src2).wf = true →
    readOperand s rd.toNat fpc = some a → readSource2 s src2 fpc = some b →
    decodeWord s.par.opcodeMap (s.mem.readWord s.pc.toInt.toNat) = .ok br →
    (br.mnemonic = .beq ∨ br.mnemonic = .bne) →
    exec (.cmp rd rs1 src2) s = .next t1 → step t1 = .next t2 → step t2 = .next t3 → step t3 = .next t4 →
    t4.flag = a - b ∧
    (t4.flush = true ↔ (if br.mnemonic = .beq then a - b = 0 else a - b ≠ 0))

/-- 40_pipeline.md R117, R129, 43_compare_branch.md R184: in any pipeline, a branch in the Decode latch whose condition
holds on FLAG as this cycle's Write-back leaves it redirects PC to its target, whatever Write-back put there, and the
cycle neither decodes nor fetches: both upstream latches are empty and no error of the dropped word or of PC is raised.
The branch goes on to Memory-access. -/
def Obligations.TakenBranchFlushes : Prop :=
  ∀ (s : State) (p : DPayload), s.status = .running → s.par.Wf → s.ld = .full p → p.ctl.branch = true →
    (olderStages s).status = .running → taken p.op (olderStages s).flag = true →
    ∃ t, step s = .next t ∧ t.status = .running ∧ t.pc = trunc32 (alu p.ctl.aluOp p.a p.b) ∧ t.flush = true ∧
      t.lf = .empty ∧ t.ld = .empty ∧ t.stall = false ∧ t.bubbleNext = false ∧
      t.le = .full { op := p.op, ctl := p.ctl, rd := p.rd, sd := p.sd, fpc := p.fpc, res := alu p.ctl.aluOp p.a p.b } ∧
      SameData t (olderStages s)

/-- 60_exceptions.md R211: a word that is dropped by a flush or that waits through a bubble raises nothing. -/
def Obligations.UndecodedWordRaisesNothing : Prop :=
  ∀ (s : State), Inv s → s.status = .running → (olderStages s).status = .running →
    ((olderStages s).flush = true ∨ s.bubbleNext = true) →
    ∃ t, step s = .next t ∧ t.status = .running ∧ t.ld = .empty ∧
      t.lf = (if (olderStages s).flush then .empty else s.lf) ∧ t.pc = (olderStages s).pc

/-- 70_reset_and_hazards.md R228, 40_pipeline.md R122: a Write-back to index 8 sets PC and drops nothing. Unless a
branch is taken in the same cycle or Fetch is stalled, this cycle's Fetch reads at the value written; the instructions
in the Fetch, Decode and Execute latches move on. -/
def Obligations.WriteBackToPcFlushesNothing : Prop :=
  ∀ (s : State) (p : MPayload) (v : DWord) (w fpc : Word) (i : Instr), Ready s w fpc → i.wf = true →
    s.stall = false → s.lm = .full p → p.ctl.regWrite = true → p.rd = 8 → writeBackValue p = some v →
    ∃ t, exec i s = .next t ∧ t.status = .running ∧ t.flush = false ∧
      t.lf = .full { word := t.mem.readWord (trunc32 v).toInt.toNat, fpc := trunc32 v } ∧ t.pc = trunc32 v + 4 ∧
      (∃ d, t.ld = .full d ∧ d.fpc = fpc) ∧
      (∀ d, s.ld = .full d → ∃ x, t.le = .full x ∧ x.fpc = d.fpc) ∧
      (∀ x, s.le = .full x → ∃ m, t.lm = .full m ∧ m.fpc = x.fpc)

/-- 20_memory.md R63, 70_reset_and_hazards.md R227: a LOAD in the cycle after a STORE to the same address loads the
bytes stored. -/
def Obligations.LoadAfterStoreSeesTheBytes : Prop :=
  ∀ (s t u : State) (p : EPayload) (q : DPayload),
    s.le = .full p → p.ctl = signalsFor .store → inBounds s.par p.res.toInt = true →
    s.ld = .full q → q.ctl = signalsFor .load → q.a + q.b = p.res →
    step s = .next t → t.status = .running → step t = .next u → (olderStages t).status = .running →
    ∃ m, u.lm = .full m ∧ m.fpc = q.fpc ∧ m.md = some ((p.sd.setWidth 32).signExtend 64)

/-- 20_memory.md R63, R64, R66: Memory-access comes before Fetch in a cycle, so a STORE over the word at PC is fetched
in the same cycle; the word already in the Fetch latch keeps its old bytes and is decoded as it was. -/
def Obligations.FetchSeesTheStoreOfItsCycle : Prop :=
  ∀ (s : State) (p : EPayload) (w fpc : Word) (i : Instr), Ready s w fpc → s.stall = false → i.wf = true →
    s.le = .full p → p.ctl = signalsFor .store → p.res.toInt = (olderStages s).pc.toInt →
    ∃ t, exec i s = .next t ∧ t.status = .running ∧
      t.lf = .full { word := p.sd.setWidth 32, fpc := (olderStages s).pc } ∧
      ∃ d, t.ld = .full d ∧ d.op = i.mnemonic ∧ d.fpc = fpc

/-- 70_reset_and_hazards.md R233: a cycle without an error does exactly one of three things at Fetch: it fetches a word,
or it is the stall cycle of a CMP and keeps the word in the Fetch latch, or it is a flush cycle and empties it. -/
def Obligations.EachCycleFetchesStallsOrFlushes : Prop :=
  ∀ (s t : State), Inv s → step s = .next t → t.status = .running →
    (t.flush = true ∧ t.lf = .empty ∧ s.stall = false) ∨
    (t.flush = false ∧ s.stall = true ∧ t.lf = s.lf) ∨
    (t.flush = false ∧ s.stall = false ∧
      ∃ a : Word, t.lf = .full { word := t.mem.readWord a.toInt.toNat, fpc := a } ∧ t.pc = a + 4)

/-! ## What changes what -/

/-- 10_state.md R21, R26: a general register or FLAG changes in a cycle only by the Write-back of an instruction whose
destination it is, and then to that instruction's value at the register's width. -/
def Obligations.RegistersChangeOnlyByWriteBack : Prop :=
  ∀ (s t : State), step s = .next t →
    (∀ k (h : k < 8), t.regs[k] ≠ s.regs[k] →
      ∃ p v, s.lm = .full p ∧ p.ctl.regWrite = true ∧ p.rd = k ∧ writeBackValue p = some v ∧ t.regs[k] = trunc32 v) ∧
    (t.flag ≠ s.flag →
      ∃ p v, s.lm = .full p ∧ p.ctl.regWrite = true ∧ p.rd = 9 ∧ writeBackValue p = some v ∧ t.flag = v)

/-- 10_state.md R24: PC changes in exactly three ways: by a Fetch that succeeds, by a taken branch, by a Write-back to
index 8. -/
def Obligations.PcChangesInThreeWays : Prop :=
  ∀ (s t : State), step s = .next t → t.pc ≠ s.pc →
    (∃ w a, t.lf = .full { word := w, fpc := a } ∧ t.pc = a + 4 ∧ t.flush = false ∧ s.stall = false) ∨
    (∃ p, s.ld = .full p ∧ p.ctl.branch = true ∧ t.flush = true ∧ t.pc = trunc32 (alu p.ctl.aluOp p.a p.b)) ∨
    (∃ p v, s.lm = .full p ∧ p.ctl.regWrite = true ∧ p.rd = 8 ∧ writeBackValue p = some v ∧ t.pc = trunc32 v)

/-- 20_memory.md R51, R53, R57, 40_pipeline.md R121: a byte changes in a cycle only by the STORE in Memory-access, whose
access is in bounds, and lies in the four bytes of that access; it then holds the byte of the stored word. -/
def Obligations.MemoryChangesOnlyByStore : Prop :=
  ∀ (s t : State) (x : Nat), step s = .next t → t.mem.byteAt x ≠ s.mem.byteAt x →
    ∃ p k, s.le = .full p ∧ p.ctl.memWrite = true ∧ inBounds s.par p.res.toInt = true ∧ k < 4 ∧
      x = p.res.toInt.toNat + k ∧ t.mem.byteAt x = byteOfWord (trunc32 p.sd) k

/-- 20_memory.md R52, R53: reading and writing a word, most significant byte first. A write of any integer stores its low
32 bits, which are read back there, and changes no other byte. -/
def Obligations.MemoryReadsWhatWasWritten : Prop :=
  ∀ (m : Memory) (a : Nat) (v : Int),
    let u : Word := BitVec.ofInt 32 v
    let n := m.writeWord a u
    n.readWord a = u ∧
    n.byteAt a = u.extractLsb' 24 8 ∧ n.byteAt (a + 1) = u.extractLsb' 16 8 ∧
    n.byteAt (a + 2) = u.extractLsb' 8 8 ∧ n.byteAt (a + 3) = u.extractLsb' 0 8 ∧
    (∀ y, (y < a ∨ a + 4 ≤ y) → n.byteAt y = m.byteAt y) ∧
    (m.readWord a).toNat =
      (m.byteAt a).toNat * 2 ^ 24 + (m.byteAt (a + 1)).toNat * 2 ^ 16 + (m.byteAt (a + 2)).toNat * 2 ^ 8 +
        (m.byteAt (a + 3)).toNat

/-- 10_state.md R27: the uniform accessor, for every index: it reads R0..R7, the live PC and FLAG; a write to 0..9 is
read back at the register's width and changes nothing else; an index above 9 is refused. -/
def Obligations.RegisterAccessor : Prop :=
  ∀ (s : State) (i : Nat) (v : DWord),
    (∀ k (h : k < 8), s.readReg k = some (s.regs[k].signExtend 64)) ∧
    s.readReg 8 = some (s.pc.signExtend 64) ∧ s.readReg 9 = some s.flag ∧
    (9 < i → s.readReg i = none ∧ s.writeReg i v = none) ∧
    (i ≤ 9 → ∃ t, s.writeReg i v = some t ∧
      t.readReg i = some (if i = 9 then v else (v.setWidth 32).signExtend 64) ∧
      (∀ j, j ≠ i → t.readReg j = s.readReg j) ∧
      t = { s with regs := t.regs, pc := t.pc, flag := t.flag })

/-- 40_pipeline.md R106: the ALU as a function of two signed 64-bit integers, and which operation the address and
target computations and CMP use. -/
def Obligations.AluTable : Prop :=
  (∀ a b : DWord,
    alu .add a b = BitVec.ofInt 64 (a.toInt + b.toInt) ∧
    alu .sub a b = BitVec.ofInt 64 (a.toInt - b.toInt) ∧
    (∀ k, (alu .and a b).getLsbD k = (a.getLsbD k && b.getLsbD k)) ∧
    (∀ k, (alu .or a b).getLsbD k = (a.getLsbD k || b.getLsbD k)) ∧
    (∀ k, (alu .xor a b).getLsbD k = (a.getLsbD k ^^ b.getLsbD k)) ∧
    alu .pass a b = b) ∧
  (∀ (s : State) (p : DPayload), (execute s p).status = s.status ∧ (execute s p).flag = s.flag) ∧
  (signalsFor .load).aluOp = .add ∧ (signalsFor .store).aluOp = .add ∧ (signalsFor .cmp).aluOp = .sub ∧
  ∀ m, (signalsFor m).branch = true → (signalsFor m).aluOp = .add

/-- 42_alu_ops.md R177: the algebraic laws of the ALU. -/
def Obligations.AluLaws : Prop :=
  ∀ a b : DWord,
    alu .add a b - alu .sub a b = b + b ∧
    (-2 ^ 63 ≤ a.toInt + b.toInt → a.toInt + b.toInt < 2 ^ 63 →
      -2 ^ 63 ≤ a.toInt - b.toInt → a.toInt - b.toInt < 2 ^ 63 →
      (alu .add a b).toInt - (alu .sub a b).toInt = 2 * b.toInt) ∧
    (∀ x y : Word,
      (alu .add (x.signExtend 64) (y.signExtend 64)).toInt - (alu .sub (x.signExtend 64) (y.signExtend 64)).toInt =
        2 * y.toInt) ∧
    alu .add a b = alu .add b a ∧
    alu .sub a a = 0 ∧
    alu .and a a = a ∧ alu .or a a = a ∧
    alu .xor a b = alu .sub (alu .or a b) (alu .and a b) ∧
    alu .xor a a = 0 ∧
    alu .pass a b = b

/-! ## Errors -/

/-- 30_encoding.md R76, 40_pipeline.md R112, R115, R132, 60_exceptions.md R201, R202, R205: a word that is no instruction
and is decoded halts the core in that very cycle, with InvalidOpcode before InvalidReg, whatever the other fields are
and whatever PC is. The older instructions have advanced one stage and no more; Fetch has not run. -/
def Obligations.InvalidWordHaltsAtDecode : Prop :=
  ∀ (s : State) (w fpc : Word), AtDecode s w fpc →
    let halt (c : FaultCode) : State :=
      { olderStages s with
        ld := .fault { code := c, stage := .decode, pc := fpc }
        status := .halted { code := c, stage := .decode, pc := fpc } }
    (12 ≤ (fieldOp w).toNat → step s = .next (halt .invalidOpcode)) ∧
    ((fieldOp w).toNat < 12 →
      (10 ≤ (fieldRd w).toNat ∨ 10 ≤ (fieldRs1 w).toNat ∨
        (fieldImm w = 0 ∧ ((fieldSrc2 w).toInt < 0 ∨ 9 < (fieldSrc2 w).toInt))) →
      step s = .next (halt .invalidReg))

/-- 60_exceptions.md R203, R206, R207 (row M), 40_pipeline.md R132: an out-of-bounds access in Memory-access halts the
core there, whatever the younger instructions would do. Write-back of this cycle has been done; the slots of Execute,
Decode and Fetch, PC and memory are as Write-back left them. -/
def Obligations.MemoryFaultHaltsBeforeYoungerStages : Prop :=
  ∀ (s : State) (p : EPayload), s.status = .running → s.par.Wf →
    (writeBackStep s.clearHazards).status = .running → s.le = .full p → (p.ctl.memRead = true ∨ p.ctl.memWrite = true) →
    (p.res.toInt < (s.par.lb : Int) ∨ (s.par.ub : Int) < p.res.toInt + 4) →
    step s = .next
      { writeBackStep s.clearHazards with
        lm := .fault { code := .segfault, stage := .memory, pc := p.fpc }
        status := .halted { code := .segfault, stage := .memory, pc := p.fpc } }

/-- 40_pipeline.md R110, 60_exceptions.md R203, R207 (row F): a Fetch at a PC out of bounds halts the core and leaves PC.
This cycle's Decode has been done. -/
def Obligations.FetchFaultLeavesPc : Prop :=
  ∀ (s : State) (i : Instr) (w fpc : Word), AtDecode s w fpc → s.stall = false → i.wf = true →
    ((olderStages s).pc.toInt < (s.par.lb : Int) ∨ (s.par.ub : Int) < (olderStages s).pc.toInt + 4) →
    let e : ErrorRecord := { code := .segfault, stage := .fetch, pc := (olderStages s).pc }
    ∃ t, exec i s = .next t ∧ t.status = .halted e ∧ t.lf = .fault e ∧ t.pc = (olderStages s).pc ∧
      (∃ d, t.ld = .full d ∧ d.op = i.mnemonic ∧ d.fpc = fpc) ∧ SameData t (olderStages s)

/-- 40_pipeline.md R132, R133, 60_exceptions.md R204, R207: how a cycle of a core that held no error can end in one.
Memory-access raises Segfault, Decode InvalidOpcode or InvalidReg, Fetch Segfault; Execute and Write-back raise
nothing. What the steps before did stands, the raising stage's slot holds the error, and the slots of the stages after
it are as they were. -/
def Obligations.HaltLeavesTheWorkDone : Prop :=
  ∀ (s t : State) (e : ErrorRecord), Inv s → step s = .next t → t.status = .halted e →
    (e.stage = .memory ∧ e.code = .segfault ∧ (∃ p, s.le = .full p ∧ e.pc = p.fpc) ∧
      t = { writeBackStep s.clearHazards with lm := .fault e, status := .halted e }) ∨
    (e.stage = .decode ∧ (e.code = .invalidOpcode ∨ e.code = .invalidReg) ∧
      (∃ p, s.lf = .full p ∧ e.pc = p.fpc) ∧
      t = { olderStages s with ld := .fault e, status := .halted e }) ∨
    (e.stage = .fetch ∧ e.code = .segfault ∧ e.pc = (olderStages s).pc ∧ t.lf = .fault e ∧
      t.pc = (olderStages s).pc ∧ SameData t (olderStages s) ∧ t.le = (olderStages s).le ∧
      t.lm = (olderStages s).lm ∧ t.lw = (olderStages s).lw ∧ t.ld.clean = true)

/-- 40_pipeline.md R134, 60_exceptions.md R208: a halted processor refuses the clock, whatever stands in its latches, and
answers its error again. -/
def Obligations.HaltedRefusesTheClock : Prop :=
  ∀ (s : State) (e : ErrorRecord), s.status = .halted e →
    step s = .fault (.halted e) ∧ ∀ i : Instr, exec i s = .fault (.halted e)

/-- 60_exceptions.md R204: the codes `run` returns. -/
def Obligations.ExitCodes : Prop :=
  ∀ (s : State) (e : ErrorRecord), s.status = .halted e →
    s.exitCode = some (match e.code with | .invalidOpcode => -100 | .invalidReg => -101 | .segfault => -102)

/-- 40_pipeline.md R138: `run` with fuel `n` answers a code exactly when the core halts within `n` cycles, and it is
that error's code. -/
def Obligations.RunReturnsTheErrorsCode : Prop :=
  ∀ (n : Nat) (s : State) (c : Int),
    run n s = some c ↔
      ∃ k t e, k ≤ n ∧ s.after k = some t ∧ t.status = .halted e ∧ e.code.exitCode = c

/-! ## Reset, host and invariants -/

/-- 70_reset_and_hazards.md R220: the state after reset, over any region and contents, and the default of
`P_PC_RESET` (`P_LB`) in `State.reset`, whatever region that has. -/
def Obligations.ResetState : Prop :=
  (∀ (par : Config.Params) (image : Memory),
    let s := State.new par image
    (∀ k (h : k < 8), s.regs[k] = 0) ∧ s.flag = 0 ∧ s.pc = par.pcReset ∧
    s.lf = .empty ∧ s.ld = .empty ∧ s.le = .empty ∧ s.lm = .empty ∧ s.lw = .empty ∧
    s.stall = false ∧ s.bubbleNext = false ∧ s.flush = false ∧ s.status = .running ∧ s.mem = image ∧ s.par = par) ∧
  State.reset.pc.toInt = State.reset.par.lb

/-- 10_state.md R40, 70_reset_and_hazards.md R221: the first cycle after reset fetches from `P_PC_RESET` and does nothing
else; the second has that word at Decode with nothing before it. -/
def Obligations.FirstCycleFetchesAtReset : Prop :=
  ∀ (par : Config.Params) (image : Memory), par.Wf →
    inBounds par par.pcReset.toInt = true → inBounds par (par.pcReset + 4).toInt = true →
    ∃ t, step (State.new par image) = .next t ∧
      Quiet t (image.readWord par.pcReset.toInt.toNat) par.pcReset ∧ SameData t (State.new par image) ∧
      t.pc = par.pcReset + 4

/-- The invariant holds after reset, over every region and contents that 00_scope.md R6 allows, and so in
`State.reset`. -/
def Obligations.ResetMeetsTheInvariant : Prop :=
  (∀ (par : Config.Params) (image : Memory), par.Wf → image.Within par → Inv (State.new par image)) ∧
  Inv State.reset

/-- 20_memory.md R67, 40_pipeline.md R136, 93_implementation_defined.md I14: `new` over what `allocate` gave. A failed
allocation, a region above 2^31 bytes and (the model's choice, notes/assumptions/10.md) every other argument that
00_scope.md R6 does not allow are refused; over arguments and contents as R6 and R50 have them it makes the processor in the reset state, and that alone. -/
def Obligations.NewProcessorOrRefusal : Prop :=
  ∀ (par : Config.Params),
    newProcessor par none = .error .noRegion ∧
    ∀ image : Memory,
      ((par.ub < par.lb ∨ 2 ^ 31 < par.ub ∨ ¬Config.OpcodeMapWf par.opcodeMap ∨ ¬image.Within par) →
        newProcessor par (some image) = .error .unsupportedArguments) ∧
      (par.Wf → image.Within par → newProcessor par (some image) = .ok (State.new par image)) ∧
      ∀ s : State, newProcessor par (some image) = .ok s →
        Inv s ∧ s.status = .running ∧ s.par = par ∧ s.mem = image ∧ s.pc = par.pcReset

/-- 20_memory.md R68: `P_MEM_INIT` is given by the host, and any byte may stand at any address of the region: whatever
byte is wanted at each, some contents that `new` accepts have it there. -/
def Obligations.AnyContentsCanBeGiven : Prop :=
  ∀ (par : Config.Params) (bytes : Nat → Byte), par.Wf →
    ∃ image, newProcessor par (some image) = .ok (State.new par image) ∧
      ∀ a, par.lb ≤ a → a < par.ub → (State.new par image).mem.byteAt a = bytes a

/-- 93_implementation_defined.md I14 on 20_memory.md R67 (notes/assumptions/10.md): no cycle of a running core over
arguments that 00_scope.md R6 does not allow has a meaning: the step and every instruction are refused. -/
def Obligations.UnsupportedArgumentsAreRefused : Prop :=
  ∀ (s : State), s.status = .running →
    (s.par.ub < s.par.lb ∨ 2 ^ 31 < s.par.ub ∨ ¬Config.OpcodeMapWf s.par.opcodeMap) →
    step s = .refused .unsupportedArguments ∧ ∀ i : Instr, exec i s = .refused .unsupportedArguments

/-- 40_pipeline.md R134, R136: a processor that `new` has made is refused no cycle: as long as it runs its clock answers
a next state, and when it has halted the error. -/
def Obligations.NewProcessorIsNeverRefused : Prop :=
  ∀ (par : Config.Params) (handle : Option Memory) (s t : State) (n : Nat),
    newProcessor par handle = .ok s → s.after n = some t →
    (t.status = .running → ∃ u, step t = .next u) ∧
    (∀ e, t.status = .halted e → step t = .fault (.halted e))

/-- Every step keeps the invariant (`Inv`): canonical memory inside the region, latches that carry their own
instruction's signals (10_state.md R29, R31), stall and bubble pending exactly behind a CMP (R32), empty upstream
slots after a flush, and errors only where the core halted (40_pipeline.md R132, R133). -/
def Obligations.StepKeepsTheInvariant : Prop :=
  ∀ s t : State, Inv s → step s = .next t → Inv t

/-- 10_state.md R35: the arguments are no state: no cycle changes them. -/
def Obligations.ArgumentsNeverChange : Prop :=
  ∀ (s t : State) (n : Nat), s.after n = some t → t.par = s.par

/-- 40_pipeline.md R123, 10_state.md R32, R35: no cycle depends on the Write-back latch, on the flush flag or on
`P_PC_RESET` as they were before it. -/
def Obligations.CycleIgnoresOutputOnlyState : Prop :=
  ∀ (s : State) (l : Latch WPayload) (f : Bool),
    step { s with lw := l, flush := f } = step s ∧
    ∀ (a : Word) (t : State), step s = .next t →
      step { s with par := { s.par with pcReset := a } } = .next { t with par := { t.par with pcReset := a } }

/-- 30_encoding.md R74: the semantics of each mnemonic do not depend on its number: under another opcode map the
meaning of an instruction takes every state to the same next state. -/
def Obligations.MeaningIgnoresTheOpcodeMap : Prop :=
  ∀ (i : Instr) (s t : State) (map : List Mnemonic), Config.OpcodeMapWf map → exec i s = .next t →
    exec i { s with par := { s.par with opcodeMap := map } } =
      .next { t with par := { t.par with opcodeMap := map } }

/-- 40_pipeline.md R137: the host's accessor: indices 0..9 read and write the live registers, a write truncated to the
register's width; any other index answers InvalidReg. A write to index 8 changes PC and no latch. -/
def Obligations.HostAccessor : Prop :=
  ∀ (s : State) (i v : Int),
    ((i < 0 ∨ 9 < i) → hostReadReg s i = .error .invalidReg ∧ hostWriteReg s i v = .error .invalidReg) ∧
    (0 ≤ i → i ≤ 9 → ∃ t, hostWriteReg s i v = .ok t ∧
      hostReadReg t i = .ok (if i = 9 then (BitVec.ofInt 64 v).toInt else (BitVec.ofInt 32 v).toInt) ∧
      (∀ j, j ≠ i → hostReadReg t j = hostReadReg s j) ∧
      t = { s with regs := t.regs, pc := t.pc, flag := t.flag })

/-- 20_memory.md R51: the bounds check holds exactly when all four bytes of the access are usable addresses. -/
def Obligations.InBoundsIsEveryByteInside : Prop :=
  ∀ (p : Config.Params) (a : Int),
    inBounds p a = true ↔ ∀ k : Int, 0 ≤ k → k < 4 → (p.lb : Int) ≤ a + k ∧ a + k < (p.ub : Int)

/-- The model's placing of one instruction (notes/assumptions/5.md): from a running core, the very next step is the
meaning of the instruction placed, with nothing before it in the pipeline. -/
def Obligations.PlacedWordRunsNext : Prop :=
  ∀ (s : State) (nbits w : Nat) (i : Instr),
    decodeWord s.par.opcodeMap (BitVec.ofNat 32 (w % 2 ^ nbits)) = .ok i →
    step (s.withFetchWord nbits w) = exec i (s.withFetchWord nbits w) ∧
    (s.status = .running → s.par.Wf → inBounds s.par (s.pc + 4).toInt = true →
      Quiet (s.withFetchWord nbits w) (BitVec.ofNat 32 (w % 2 ^ nbits)) s.pc)
end

