-- ==== Sys2Proof/Laws/State.lean ====
section
/-! SUPPORT. One lemma per field for each named update of the state. -/

namespace Sys2Proof.Machine

@[simp] theorem State.haltAt_regs (s : State) (st : Stage) (e : ErrorRecord) :
    (s.haltAt st e).regs = s.regs := by cases st <;> rfl
@[simp] theorem State.haltAt_pc (s : State) (st : Stage) (e : ErrorRecord) :
    (s.haltAt st e).pc = s.pc := by cases st <;> rfl
@[simp] theorem State.haltAt_flag (s : State) (st : Stage) (e : ErrorRecord) :
    (s.haltAt st e).flag = s.flag := by cases st <;> rfl
@[simp] theorem State.haltAt_fetch_lf (s : State) (e : ErrorRecord) :
    (s.haltAt .fetch e).lf = .fault e := rfl
theorem State.haltAt_lf (s : State) (st : Stage) (e : ErrorRecord) (h : st ≠ .fetch) :
    (s.haltAt st e).lf = s.lf := by cases st <;> first | rfl | exact absurd rfl h
@[simp] theorem State.haltAt_decode_ld (s : State) (e : ErrorRecord) :
    (s.haltAt .decode e).ld = .fault e := rfl
theorem State.haltAt_ld (s : State) (st : Stage) (e : ErrorRecord) (h : st ≠ .decode) :
    (s.haltAt st e).ld = s.ld := by cases st <;> first | rfl | exact absurd rfl h
@[simp] theorem State.haltAt_execute_le (s : State) (e : ErrorRecord) :
    (s.haltAt .execute e).le = .fault e := rfl
theorem State.haltAt_le (s : State) (st : Stage) (e : ErrorRecord) (h : st ≠ .execute) :
    (s.haltAt st e).le = s.le := by cases st <;> first | rfl | exact absurd rfl h
@[simp] theorem State.haltAt_memory_lm (s : State) (e : ErrorRecord) :
    (s.haltAt .memory e).lm = .fault e := rfl
theorem State.haltAt_lm (s : State) (st : Stage) (e : ErrorRecord) (h : st ≠ .memory) :
    (s.haltAt st e).lm = s.lm := by cases st <;> first | rfl | exact absurd rfl h
@[simp] theorem State.haltAt_writeBack_lw (s : State) (e : ErrorRecord) :
    (s.haltAt .writeBack e).lw = .fault e := rfl
theorem State.haltAt_lw (s : State) (st : Stage) (e : ErrorRecord) (h : st ≠ .writeBack) :
    (s.haltAt st e).lw = s.lw := by cases st <;> first | rfl | exact absurd rfl h
@[simp] theorem State.haltAt_stall (s : State) (st : Stage) (e : ErrorRecord) :
    (s.haltAt st e).stall = s.stall := by cases st <;> rfl
@[simp] theorem State.haltAt_bubbleNext (s : State) (st : Stage) (e : ErrorRecord) :
    (s.haltAt st e).bubbleNext = s.bubbleNext := by cases st <;> rfl
@[simp] theorem State.haltAt_flush (s : State) (st : Stage) (e : ErrorRecord) :
    (s.haltAt st e).flush = s.flush := by cases st <;> rfl
@[simp] theorem State.haltAt_status (s : State) (st : Stage) (e : ErrorRecord) :
    (s.haltAt st e).status = .halted e := by cases st <;> rfl
@[simp] theorem State.haltAt_mem (s : State) (st : Stage) (e : ErrorRecord) :
    (s.haltAt st e).mem = s.mem := by cases st <;> rfl
@[simp] theorem State.haltAt_par (s : State) (st : Stage) (e : ErrorRecord) :
    (s.haltAt st e).par = s.par := by cases st <;> rfl

@[simp] theorem State.clearHazards_regs (s : State) : s.clearHazards.regs = s.regs := rfl
@[simp] theorem State.clearHazards_pc (s : State) : s.clearHazards.pc = s.pc := rfl
@[simp] theorem State.clearHazards_flag (s : State) : s.clearHazards.flag = s.flag := rfl
@[simp] theorem State.clearHazards_lf (s : State) : s.clearHazards.lf = s.lf := rfl
@[simp] theorem State.clearHazards_ld (s : State) : s.clearHazards.ld = s.ld := rfl
@[simp] theorem State.clearHazards_le (s : State) : s.clearHazards.le = s.le := rfl
@[simp] theorem State.clearHazards_lm (s : State) : s.clearHazards.lm = s.lm := rfl
@[simp] theorem State.clearHazards_lw (s : State) : s.clearHazards.lw = s.lw := rfl
@[simp] theorem State.clearHazards_stall (s : State) : s.clearHazards.stall = false := rfl
@[simp] theorem State.clearHazards_bubbleNext (s : State) : s.clearHazards.bubbleNext = false := rfl
@[simp] theorem State.clearHazards_flush (s : State) : s.clearHazards.flush = false := rfl
@[simp] theorem State.clearHazards_status (s : State) : s.clearHazards.status = s.status := rfl
@[simp] theorem State.clearHazards_mem (s : State) : s.clearHazards.mem = s.mem := rfl
@[simp] theorem State.clearHazards_par (s : State) : s.clearHazards.par = s.par := rfl

/-- The next step of a cycle runs on a Running state. -/
theorem State.andThen_running {s : State} (f : State → State) (h : s.status = .running) : s.andThen f = f s := by
  simp [State.andThen, h]

/-- Nothing after a raise is performed. -/
theorem State.andThen_halted {s : State} {e : ErrorRecord} (f : State → State) (h : s.status = .halted e) :
    s.andThen f = s := by
  simp [State.andThen, h]

/-- What a sequence of two steps can do. -/
theorem State.andThen_cases (s : State) (f : State → State) :
    (s.status = .running ∧ s.andThen f = f s) ∨ (∃ e, s.status = .halted e ∧ s.andThen f = s) := by
  cases h : s.status with
  | running => exact .inl ⟨rfl, State.andThen_running f h⟩
  | halted e => exact .inr ⟨e, rfl, State.andThen_halted f h⟩

/-- A field no step touches is the same after a sequence. -/
theorem State.andThen_keeps {α : Type} (g : State → α) (s : State) (f : State → State) (h : g (f s) = g s) :
    g (s.andThen f) = g s := by
  rcases State.andThen_cases s f with ⟨_, h'⟩ | ⟨_, _, h'⟩ <;> simp [h', h]

end Sys2Proof.Machine
end

