-- ==== Sys2Proof/Laws/Stages.lean ====
section
/-! SUPPORT. What each step of a cycle leaves alone, and what one `step` is: a `cycle` on a Running state. -/

namespace Sys2Proof.Machine

/-! ## The accessor -/

/-- What a register write can be. -/
theorem State.writeReg_cases {s t : State} {i : Nat} {v : DWord} (h : s.writeReg i v = some t) :
    (∃ hi : i < 8, t = { s with regs := s.regs.set i (trunc32 v) hi }) ∨
    (i = 8 ∧ t = { s with pc := trunc32 v }) ∨ (i = 9 ∧ t = { s with flag := v }) := by
  unfold State.writeReg at h
  split at h
  · exact .inl ⟨_, (Option.some.inj h).symm⟩
  split at h
  · exact .inr (.inl ⟨‹_›, (Option.some.inj h).symm⟩)
  split at h
  · exact .inr (.inr ⟨‹_›, (Option.some.inj h).symm⟩)
  · cases h

/-- The accessor writes exactly the indices 0..9. -/
theorem State.writeReg_isSome (s : State) (i : Nat) (v : DWord) : (s.writeReg i v).isSome = decide (i ≤ 9) := by
  unfold State.writeReg
  split
  · simp; omega
  split
  · simp; omega
  split
  · simp; omega
  · simp; omega

/-- The accessor reads exactly the indices 0..9. -/
theorem State.readReg_isSome (s : State) (i : Nat) : (s.readReg i).isSome = decide (i ≤ 9) := by
  unfold State.readReg
  split
  · simp; omega
  split
  · simp; omega
  split
  · simp; omega
  · simp; omega

/-! ## Write-back -/

/-- What Write-back of an instruction can be: nothing written, one register written with its new value recorded, or
(never in a run) an error. -/
theorem writeBack_cases (s : State) (p : MPayload) :
    ((p.ctl.regWrite = false ∨ writeBackValue p = none) ∧
      writeBack s p = { s with lw := .full { op := p.op, rd := p.rd, fpc := p.fpc, wrote := false, value := 0 } }) ∨
    (∃ v t x, p.ctl.regWrite = true ∧ writeBackValue p = some v ∧ s.writeReg p.rd v = some t ∧
      t.readReg p.rd = some x ∧
      writeBack s p = { t with lw := .full { op := p.op, rd := p.rd, fpc := p.fpc, wrote := true, value := x } }) ∨
    (9 < p.rd ∧ writeBack s p = s.raise .invalidReg .writeBack p.fpc) := by
  unfold writeBack
  split
  · exact .inl ⟨.inl ‹_›, rfl⟩
  rename_i hw
  cases hv : writeBackValue p with
  | none => exact .inl ⟨.inr rfl, rfl⟩
  | some v =>
    have h9 := s.writeReg_isSome p.rd v
    cases ht : s.writeReg p.rd v with
    | none =>
      rw [ht] at h9
      exact .inr (.inr ⟨by simpa using h9.symm, by simp [ht]⟩)
    | some t =>
      rw [ht] at h9
      cases hx : t.readReg p.rd with
      | none =>
        have := t.readReg_isSome p.rd
        rw [hx] at this
        simp_all
      | some x => exact .inr (.inl ⟨v, t, x, by simpa using hw, rfl, ht, hx, by simp only [ht, hx]⟩)

@[simp] theorem writeBack_lf (s : State) (p : MPayload) : (writeBack s p).lf = s.lf := by
  rcases writeBack_cases s p with ⟨-, h⟩ | ⟨v, t, x, -, -, ht, -, h⟩ | ⟨-, h⟩
  · rw [h]
  · rcases State.writeReg_cases ht with ⟨_, rfl⟩ | ⟨_, rfl⟩ | ⟨_, rfl⟩ <;> rw [h]
  · rw [h]; rfl

@[simp] theorem writeBackStep_lf (s : State) : (writeBackStep s).lf = s.lf := by
  unfold writeBackStep; split <;> first | rfl | exact writeBack_lf s _

@[simp] theorem writeBack_ld (s : State) (p : MPayload) : (writeBack s p).ld = s.ld := by
  rcases writeBack_cases s p with ⟨-, h⟩ | ⟨v, t, x, -, -, ht, -, h⟩ | ⟨-, h⟩
  · rw [h]
  · rcases State.writeReg_cases ht with ⟨_, rfl⟩ | ⟨_, rfl⟩ | ⟨_, rfl⟩ <;> rw [h]
  · rw [h]; rfl

@[simp] theorem writeBackStep_ld (s : State) : (writeBackStep s).ld = s.ld := by
  unfold writeBackStep; split <;> first | rfl | exact writeBack_ld s _

@[simp] theorem writeBack_le (s : State) (p : MPayload) : (writeBack s p).le = s.le := by
  rcases writeBack_cases s p with ⟨-, h⟩ | ⟨v, t, x, -, -, ht, -, h⟩ | ⟨-, h⟩
  · rw [h]
  · rcases State.writeReg_cases ht with ⟨_, rfl⟩ | ⟨_, rfl⟩ | ⟨_, rfl⟩ <;> rw [h]
  · rw [h]; rfl

@[simp] theorem writeBackStep_le (s : State) : (writeBackStep s).le = s.le := by
  unfold writeBackStep; split <;> first | rfl | exact writeBack_le s _

@[simp] theorem writeBack_lm (s : State) (p : MPayload) : (writeBack s p).lm = s.lm := by
  rcases writeBack_cases s p with ⟨-, h⟩ | ⟨v, t, x, -, -, ht, -, h⟩ | ⟨-, h⟩
  · rw [h]
  · rcases State.writeReg_cases ht with ⟨_, rfl⟩ | ⟨_, rfl⟩ | ⟨_, rfl⟩ <;> rw [h]
  · rw [h]; rfl

@[simp] theorem writeBackStep_lm (s : State) : (writeBackStep s).lm = s.lm := by
  unfold writeBackStep; split <;> first | rfl | exact writeBack_lm s _

@[simp] theorem writeBack_stall (s : State) (p : MPayload) : (writeBack s p).stall = s.stall := by
  rcases writeBack_cases s p with ⟨-, h⟩ | ⟨v, t, x, -, -, ht, -, h⟩ | ⟨-, h⟩
  · rw [h]
  · rcases State.writeReg_cases ht with ⟨_, rfl⟩ | ⟨_, rfl⟩ | ⟨_, rfl⟩ <;> rw [h]
  · rw [h]; rfl

@[simp] theorem writeBackStep_stall (s : State) : (writeBackStep s).stall = s.stall := by
  unfold writeBackStep; split <;> first | rfl | exact writeBack_stall s _

@[simp] theorem writeBack_bubbleNext (s : State) (p : MPayload) : (writeBack s p).bubbleNext = s.bubbleNext := by
  rcases writeBack_cases s p with ⟨-, h⟩ | ⟨v, t, x, -, -, ht, -, h⟩ | ⟨-, h⟩
  · rw [h]
  · rcases State.writeReg_cases ht with ⟨_, rfl⟩ | ⟨_, rfl⟩ | ⟨_, rfl⟩ <;> rw [h]
  · rw [h]; rfl

@[simp] theorem writeBackStep_bubbleNext (s : State) : (writeBackStep s).bubbleNext = s.bubbleNext := by
  unfold writeBackStep; split <;> first | rfl | exact writeBack_bubbleNext s _

@[simp] theorem writeBack_flush (s : State) (p : MPayload) : (writeBack s p).flush = s.flush := by
  rcases writeBack_cases s p with ⟨-, h⟩ | ⟨v, t, x, -, -, ht, -, h⟩ | ⟨-, h⟩
  · rw [h]
  · rcases State.writeReg_cases ht with ⟨_, rfl⟩ | ⟨_, rfl⟩ | ⟨_, rfl⟩ <;> rw [h]
  · rw [h]; rfl

@[simp] theorem writeBackStep_flush (s : State) : (writeBackStep s).flush = s.flush := by
  unfold writeBackStep; split <;> first | rfl | exact writeBack_flush s _

@[simp] theorem writeBack_mem (s : State) (p : MPayload) : (writeBack s p).mem = s.mem := by
  rcases writeBack_cases s p with ⟨-, h⟩ | ⟨v, t, x, -, -, ht, -, h⟩ | ⟨-, h⟩
  · rw [h]
  · rcases State.writeReg_cases ht with ⟨_, rfl⟩ | ⟨_, rfl⟩ | ⟨_, rfl⟩ <;> rw [h]
  · rw [h]; rfl

@[simp] theorem writeBackStep_mem (s : State) : (writeBackStep s).mem = s.mem := by
  unfold writeBackStep; split <;> first | rfl | exact writeBack_mem s _

@[simp] theorem writeBack_par (s : State) (p : MPayload) : (writeBack s p).par = s.par := by
  rcases writeBack_cases s p with ⟨-, h⟩ | ⟨v, t, x, -, -, ht, -, h⟩ | ⟨-, h⟩
  · rw [h]
  · rcases State.writeReg_cases ht with ⟨_, rfl⟩ | ⟨_, rfl⟩ | ⟨_, rfl⟩ <;> rw [h]
  · rw [h]; rfl

@[simp] theorem writeBackStep_par (s : State) : (writeBackStep s).par = s.par := by
  unfold writeBackStep; split <;> first | rfl | exact writeBack_par s _

/-! ## Memory-access -/

@[simp] theorem memAccess_regs (s : State) (p : EPayload) : (memAccess s p).regs = s.regs := by
  unfold memAccess; split <;> rfl

@[simp] theorem memAccessStep_regs (s : State) : (memAccessStep s).regs = s.regs := by
  unfold memAccessStep; split <;> first | rfl | exact memAccess_regs s _

@[simp] theorem memAccess_pc (s : State) (p : EPayload) : (memAccess s p).pc = s.pc := by
  unfold memAccess; split <;> rfl

@[simp] theorem memAccessStep_pc (s : State) : (memAccessStep s).pc = s.pc := by
  unfold memAccessStep; split <;> first | rfl | exact memAccess_pc s _

@[simp] theorem memAccess_flag (s : State) (p : EPayload) : (memAccess s p).flag = s.flag := by
  unfold memAccess; split <;> rfl

@[simp] theorem memAccessStep_flag (s : State) : (memAccessStep s).flag = s.flag := by
  unfold memAccessStep; split <;> first | rfl | exact memAccess_flag s _

@[simp] theorem memAccess_lf (s : State) (p : EPayload) : (memAccess s p).lf = s.lf := by
  unfold memAccess; split <;> rfl

@[simp] theorem memAccessStep_lf (s : State) : (memAccessStep s).lf = s.lf := by
  unfold memAccessStep; split <;> first | rfl | exact memAccess_lf s _

@[simp] theorem memAccess_ld (s : State) (p : EPayload) : (memAccess s p).ld = s.ld := by
  unfold memAccess; split <;> rfl

@[simp] theorem memAccessStep_ld (s : State) : (memAccessStep s).ld = s.ld := by
  unfold memAccessStep; split <;> first | rfl | exact memAccess_ld s _

@[simp] theorem memAccess_le (s : State) (p : EPayload) : (memAccess s p).le = s.le := by
  unfold memAccess; split <;> rfl

@[simp] theorem memAccessStep_le (s : State) : (memAccessStep s).le = s.le := by
  unfold memAccessStep; split <;> first | rfl | exact memAccess_le s _

@[simp] theorem memAccess_lw (s : State) (p : EPayload) : (memAccess s p).lw = s.lw := by
  unfold memAccess; split <;> rfl

@[simp] theorem memAccessStep_lw (s : State) : (memAccessStep s).lw = s.lw := by
  unfold memAccessStep; split <;> first | rfl | exact memAccess_lw s _

@[simp] theorem memAccess_stall (s : State) (p : EPayload) : (memAccess s p).stall = s.stall := by
  unfold memAccess; split <;> rfl

@[simp] theorem memAccessStep_stall (s : State) : (memAccessStep s).stall = s.stall := by
  unfold memAccessStep; split <;> first | rfl | exact memAccess_stall s _

@[simp] theorem memAccess_bubbleNext (s : State) (p : EPayload) : (memAccess s p).bubbleNext = s.bubbleNext := by
  unfold memAccess; split <;> rfl

@[simp] theorem memAccessStep_bubbleNext (s : State) : (memAccessStep s).bubbleNext = s.bubbleNext := by
  unfold memAccessStep; split <;> first | rfl | exact memAccess_bubbleNext s _

@[simp] theorem memAccess_flush (s : State) (p : EPayload) : (memAccess s p).flush = s.flush := by
  unfold memAccess; split <;> rfl

@[simp] theorem memAccessStep_flush (s : State) : (memAccessStep s).flush = s.flush := by
  unfold memAccessStep; split <;> first | rfl | exact memAccess_flush s _

@[simp] theorem memAccess_par (s : State) (p : EPayload) : (memAccess s p).par = s.par := by
  unfold memAccess; split <;> rfl

@[simp] theorem memAccessStep_par (s : State) : (memAccessStep s).par = s.par := by
  unfold memAccessStep; split <;> first | rfl | exact memAccess_par s _

/-! ## Execute -/

@[simp] theorem execute_regs (s : State) (p : DPayload) : (execute s p).regs = s.regs := by
  unfold execute; dsimp only; split <;> rfl

@[simp] theorem executeStep_regs (s : State) : (executeStep s).regs = s.regs := by
  unfold executeStep; split <;> first | rfl | exact execute_regs s _

@[simp] theorem execute_flag (s : State) (p : DPayload) : (execute s p).flag = s.flag := by
  unfold execute; dsimp only; split <;> rfl

@[simp] theorem executeStep_flag (s : State) : (executeStep s).flag = s.flag := by
  unfold executeStep; split <;> first | rfl | exact execute_flag s _

@[simp] theorem execute_lf (s : State) (p : DPayload) : (execute s p).lf = s.lf := by
  unfold execute; dsimp only; split <;> rfl

@[simp] theorem executeStep_lf (s : State) : (executeStep s).lf = s.lf := by
  unfold executeStep; split <;> first | rfl | exact execute_lf s _

@[simp] theorem execute_ld (s : State) (p : DPayload) : (execute s p).ld = s.ld := by
  unfold execute; dsimp only; split <;> rfl

@[simp] theorem executeStep_ld (s : State) : (executeStep s).ld = s.ld := by
  unfold executeStep; split <;> first | rfl | exact execute_ld s _

@[simp] theorem execute_lm (s : State) (p : DPayload) : (execute s p).lm = s.lm := by
  unfold execute; dsimp only; split <;> rfl

@[simp] theorem executeStep_lm (s : State) : (executeStep s).lm = s.lm := by
  unfold executeStep; split <;> first | rfl | exact execute_lm s _

@[simp] theorem execute_lw (s : State) (p : DPayload) : (execute s p).lw = s.lw := by
  unfold execute; dsimp only; split <;> rfl

@[simp] theorem executeStep_lw (s : State) : (executeStep s).lw = s.lw := by
  unfold executeStep; split <;> first | rfl | exact execute_lw s _

@[simp] theorem execute_stall (s : State) (p : DPayload) : (execute s p).stall = s.stall := by
  unfold execute; dsimp only; split <;> rfl

@[simp] theorem executeStep_stall (s : State) : (executeStep s).stall = s.stall := by
  unfold executeStep; split <;> first | rfl | exact execute_stall s _

@[simp] theorem execute_bubbleNext (s : State) (p : DPayload) : (execute s p).bubbleNext = s.bubbleNext := by
  unfold execute; dsimp only; split <;> rfl

@[simp] theorem executeStep_bubbleNext (s : State) : (executeStep s).bubbleNext = s.bubbleNext := by
  unfold executeStep; split <;> first | rfl | exact execute_bubbleNext s _

@[simp] theorem execute_mem (s : State) (p : DPayload) : (execute s p).mem = s.mem := by
  unfold execute; dsimp only; split <;> rfl

@[simp] theorem executeStep_mem (s : State) : (executeStep s).mem = s.mem := by
  unfold executeStep; split <;> first | rfl | exact execute_mem s _

@[simp] theorem execute_par (s : State) (p : DPayload) : (execute s p).par = s.par := by
  unfold execute; dsimp only; split <;> rfl

@[simp] theorem executeStep_par (s : State) : (executeStep s).par = s.par := by
  unfold executeStep; split <;> first | rfl | exact execute_par s _

@[simp] theorem execute_status (s : State) (p : DPayload) : (execute s p).status = s.status := by
  unfold execute; dsimp only; split <;> rfl

/-! ## Decode -/

/-- What Decode may do with a word: it writes its own slot, the two hazard requests and, on an error, the status. -/
structure DecodesOnly (d : Word → State → State) : Prop where
  regs : ∀ fpc s, (d fpc s).regs = s.regs
  pc : ∀ fpc s, (d fpc s).pc = s.pc
  flag : ∀ fpc s, (d fpc s).flag = s.flag
  lf : ∀ fpc s, (d fpc s).lf = s.lf
  le : ∀ fpc s, (d fpc s).le = s.le
  lm : ∀ fpc s, (d fpc s).lm = s.lm
  lw : ∀ fpc s, (d fpc s).lw = s.lw
  flush : ∀ fpc s, (d fpc s).flush = s.flush
  mem : ∀ fpc s, (d fpc s).mem = s.mem
  par : ∀ fpc s, (d fpc s).par = s.par

theorem decodeFails_decodesOnly (err : DecodeError) : DecodesOnly (decodeFails err) :=
  ⟨fun _ _ => rfl, fun _ _ => rfl, fun _ _ => rfl, fun _ _ => rfl, fun _ _ => rfl, fun _ _ => rfl, fun _ _ => rfl, fun _ _ => rfl, fun _ _ => rfl, fun _ _ => rfl⟩

theorem idle_decodesOnly : DecodesOnly (fun _ t => t) :=
  ⟨fun _ _ => rfl, fun _ _ => rfl, fun _ _ => rfl, fun _ _ => rfl, fun _ _ => rfl, fun _ _ => rfl, fun _ _ => rfl, fun _ _ => rfl, fun _ _ => rfl, fun _ _ => rfl⟩

/-- What Decode of an instruction can be: an error of its own slot, or the Decode latch with the three operands and the
hazard request. -/
theorem issue_cases (i : Issue) (fpc : Word) (s : State) :
    (∃ code, issue i fpc s = s.raise code .decode fpc) ∨
    (∃ a b sd, readOperand s i.roles.src1 fpc = some a ∧ readSource2 s i.src2 fpc = some b ∧
      readOperand s i.roles.dest fpc = some sd ∧ operandError i.rd i.rs1 i.src2 = none ∧
      issue i fpc s =
        { s with
          ld := .full { op := i.op, ctl := i.ctl, rd := i.roles.dest, a := a, b := b, sd := sd, fpc := fpc }
          stall := i.hazard
          bubbleNext := i.hazard }) := by
  unfold issue
  cases he : operandError i.rd i.rs1 i.src2 with
  | some err => exact .inl ⟨_, rfl⟩
  | none =>
    dsimp only
    split
    · rename_i a b sd ha hb hsd
      exact .inr ⟨a, b, sd, ha, hb, hsd, rfl, rfl⟩
    · exact .inl ⟨_, rfl⟩

theorem issue_decodesOnly (i : Issue) : DecodesOnly (issue i) := by
  constructor <;> intro fpc s <;>
    rcases issue_cases i fpc s with ⟨code, h⟩ | ⟨a, b, sd, -, -, -, -, h⟩ <;> rw [h] <;> rfl

theorem decodeStep_regs {d : Word → State → State} (hd : DecodesOnly d) (b : Bool) (s : State) :
    (decodeStep b d s).regs = s.regs := by
  unfold decodeStep; split
  · rfl
  split
  · rfl
  split <;> first | rfl | exact hd.regs _ s

theorem decodeStep_pc {d : Word → State → State} (hd : DecodesOnly d) (b : Bool) (s : State) :
    (decodeStep b d s).pc = s.pc := by
  unfold decodeStep; split
  · rfl
  split
  · rfl
  split <;> first | rfl | exact hd.pc _ s

theorem decodeStep_flag {d : Word → State → State} (hd : DecodesOnly d) (b : Bool) (s : State) :
    (decodeStep b d s).flag = s.flag := by
  unfold decodeStep; split
  · rfl
  split
  · rfl
  split <;> first | rfl | exact hd.flag _ s

theorem decodeStep_lf {d : Word → State → State} (hd : DecodesOnly d) (b : Bool) (s : State) :
    (decodeStep b d s).lf = s.lf := by
  unfold decodeStep; split
  · rfl
  split
  · rfl
  split <;> first | rfl | exact hd.lf _ s

theorem decodeStep_le {d : Word → State → State} (hd : DecodesOnly d) (b : Bool) (s : State) :
    (decodeStep b d s).le = s.le := by
  unfold decodeStep; split
  · rfl
  split
  · rfl
  split <;> first | rfl | exact hd.le _ s

theorem decodeStep_lm {d : Word → State → State} (hd : DecodesOnly d) (b : Bool) (s : State) :
    (decodeStep b d s).lm = s.lm := by
  unfold decodeStep; split
  · rfl
  split
  · rfl
  split <;> first | rfl | exact hd.lm _ s

theorem decodeStep_lw {d : Word → State → State} (hd : DecodesOnly d) (b : Bool) (s : State) :
    (decodeStep b d s).lw = s.lw := by
  unfold decodeStep; split
  · rfl
  split
  · rfl
  split <;> first | rfl | exact hd.lw _ s

theorem decodeStep_flush {d : Word → State → State} (hd : DecodesOnly d) (b : Bool) (s : State) :
    (decodeStep b d s).flush = s.flush := by
  unfold decodeStep; split
  · rfl
  split
  · rfl
  split <;> first | rfl | exact hd.flush _ s

theorem decodeStep_mem {d : Word → State → State} (hd : DecodesOnly d) (b : Bool) (s : State) :
    (decodeStep b d s).mem = s.mem := by
  unfold decodeStep; split
  · rfl
  split
  · rfl
  split <;> first | rfl | exact hd.mem _ s

theorem decodeStep_par {d : Word → State → State} (hd : DecodesOnly d) (b : Bool) (s : State) :
    (decodeStep b d s).par = s.par := by
  unfold decodeStep; split
  · rfl
  split
  · rfl
  split <;> first | rfl | exact hd.par _ s

/-! ## Fetch -/

@[simp] theorem fetch_regs (s : State) : (fetch s).regs = s.regs := by
  unfold fetch; split <;> rfl

@[simp] theorem fetchStep_regs (b : Bool) (s : State) : (fetchStep b s).regs = s.regs := by
  unfold fetchStep; split
  · rfl
  split
  · rfl
  · exact fetch_regs s

@[simp] theorem fetch_flag (s : State) : (fetch s).flag = s.flag := by
  unfold fetch; split <;> rfl

@[simp] theorem fetchStep_flag (b : Bool) (s : State) : (fetchStep b s).flag = s.flag := by
  unfold fetchStep; split
  · rfl
  split
  · rfl
  · exact fetch_flag s

@[simp] theorem fetch_ld (s : State) : (fetch s).ld = s.ld := by
  unfold fetch; split <;> rfl

@[simp] theorem fetchStep_ld (b : Bool) (s : State) : (fetchStep b s).ld = s.ld := by
  unfold fetchStep; split
  · rfl
  split
  · rfl
  · exact fetch_ld s

@[simp] theorem fetch_le (s : State) : (fetch s).le = s.le := by
  unfold fetch; split <;> rfl

@[simp] theorem fetchStep_le (b : Bool) (s : State) : (fetchStep b s).le = s.le := by
  unfold fetchStep; split
  · rfl
  split
  · rfl
  · exact fetch_le s

@[simp] theorem fetch_lm (s : State) : (fetch s).lm = s.lm := by
  unfold fetch; split <;> rfl

@[simp] theorem fetchStep_lm (b : Bool) (s : State) : (fetchStep b s).lm = s.lm := by
  unfold fetchStep; split
  · rfl
  split
  · rfl
  · exact fetch_lm s

@[simp] theorem fetch_lw (s : State) : (fetch s).lw = s.lw := by
  unfold fetch; split <;> rfl

@[simp] theorem fetchStep_lw (b : Bool) (s : State) : (fetchStep b s).lw = s.lw := by
  unfold fetchStep; split
  · rfl
  split
  · rfl
  · exact fetch_lw s

@[simp] theorem fetch_stall (s : State) : (fetch s).stall = s.stall := by
  unfold fetch; split <;> rfl

@[simp] theorem fetchStep_stall (b : Bool) (s : State) : (fetchStep b s).stall = s.stall := by
  unfold fetchStep; split
  · rfl
  split
  · rfl
  · exact fetch_stall s

@[simp] theorem fetch_bubbleNext (s : State) : (fetch s).bubbleNext = s.bubbleNext := by
  unfold fetch; split <;> rfl

@[simp] theorem fetchStep_bubbleNext (b : Bool) (s : State) : (fetchStep b s).bubbleNext = s.bubbleNext := by
  unfold fetchStep; split
  · rfl
  split
  · rfl
  · exact fetch_bubbleNext s

@[simp] theorem fetch_flush (s : State) : (fetch s).flush = s.flush := by
  unfold fetch; split <;> rfl

@[simp] theorem fetchStep_flush (b : Bool) (s : State) : (fetchStep b s).flush = s.flush := by
  unfold fetchStep; split
  · rfl
  split
  · rfl
  · exact fetch_flush s

@[simp] theorem fetch_mem (s : State) : (fetch s).mem = s.mem := by
  unfold fetch; split <;> rfl

@[simp] theorem fetchStep_mem (b : Bool) (s : State) : (fetchStep b s).mem = s.mem := by
  unfold fetchStep; split
  · rfl
  split
  · rfl
  · exact fetch_mem s

@[simp] theorem fetch_par (s : State) : (fetch s).par = s.par := by
  unfold fetch; split <;> rfl

@[simp] theorem fetchStep_par (b : Bool) (s : State) : (fetchStep b s).par = s.par := by
  unfold fetchStep; split
  · rfl
  split
  · rfl
  · exact fetch_par s

/-! ## What Memory-access, Execute and Fetch can be -/

/-- What Memory-access of an instruction can be: Segfault for an access that is not in bounds; else the Memory latch,
with the store's bytes written or the word loaded. -/
theorem memAccess_cases (s : State) (p : EPayload) :
    ((p.ctl.memRead = true ∨ p.ctl.memWrite = true) ∧ inBounds s.par p.res.toInt = false ∧
      memAccess s p = s.raise .segfault .memory p.fpc) ∨
    (((p.ctl.memRead = true ∨ p.ctl.memWrite = true) → inBounds s.par p.res.toInt = true) ∧
      memAccess s p =
        { s with
          mem := if p.ctl.memWrite then s.mem.writeWord p.res.toInt.toNat (trunc32 p.sd) else s.mem
          lm := .full
            { op := p.op, ctl := p.ctl, rd := p.rd, res := p.res, fpc := p.fpc
              md := if p.ctl.memRead then some (sext32 (s.mem.readWord p.res.toInt.toNat)) else none } }) := by
  unfold memAccess
  split
  · rename_i h
    simp only [Bool.and_eq_true, Bool.or_eq_true, Bool.not_eq_true'] at h
    exact .inl ⟨h.1, h.2, rfl⟩
  · rename_i h
    simp only [Bool.and_eq_true, Bool.or_eq_true, Bool.not_eq_true', not_and, Bool.not_eq_false] at h
    exact .inr ⟨h, rfl⟩

/-- What Execute of an instruction can be: the Execute latch with the ALU result, and for a taken branch the redirect
and the flush. -/
theorem execute_cases (s : State) (p : DPayload) :
    let res := alu p.ctl.aluOp p.a p.b
    let t := { s with le := .full { op := p.op, ctl := p.ctl, rd := p.rd, sd := p.sd, fpc := p.fpc, res := res } }
    (p.ctl.branch = true ∧ taken p.op s.flag = true ∧ execute s p = { t with pc := trunc32 res, flush := true }) ∨
    ((p.ctl.branch = false ∨ taken p.op s.flag = false) ∧ execute s p = t) := by
  unfold execute
  dsimp only
  split
  · rename_i h
    rw [Bool.and_eq_true] at h
    exact .inl ⟨h.1, h.2, rfl⟩
  · rename_i h
    rw [Bool.and_eq_true, not_and_or, Bool.not_eq_true, Bool.not_eq_true] at h
    exact .inr ⟨h, rfl⟩

/-- What Fetch can be: the word at PC in the Fetch latch and PC past it, or Segfault with PC as it was. -/
theorem fetch_cases (s : State) :
    (inBounds s.par s.pc.toInt = true ∧
      fetch s =
        { s with lf := .full { word := s.mem.readWord s.pc.toInt.toNat, fpc := s.pc }, pc := s.pc + 4 }) ∨
    (inBounds s.par s.pc.toInt = false ∧ fetch s = s.raise .segfault .fetch s.pc) := by
  unfold fetch
  split
  · exact .inl ⟨‹_›, rfl⟩
  · exact .inr ⟨Bool.eq_false_iff.2 ‹_›, rfl⟩

/-! ## One step -/

/-- What Decode hands on for an instruction, in terms of its fields: the one shape of the twelve meanings. -/
def issueOf (i : Instr) : Issue :=
  { op := i.mnemonic, rd := i.rd, rs1 := i.rs1, src2 := i.src2, ctl := signalsFor i.mnemonic
    roles := { src1 := normSrc1 i, dest := normDest i }, hazard := decide (i.mnemonic = .cmp) }

/-- The meaning of an instruction is a clock cycle whose Decode issues it. -/
theorem exec_eq_clockCycle (i : Instr) (s : State) : exec i s = clockCycle (issue (issueOf i)) s := by
  cases i <;> rfl

/-- What a clock cycle can answer. -/
theorem clockCycle_cases (d : Word → State → State) (s : State) :
    (s.status = .running ∧ s.par.Wf ∧ clockCycle d s = .next (cycle d s)) ∨
    (s.status = .running ∧ ¬s.par.Wf ∧ clockCycle d s = .refused .unsupportedArguments) ∨
    (∃ e, s.status = .halted e ∧ clockCycle d s = .fault (.halted e)) := by
  unfold clockCycle
  cases s.status with
  | running =>
    by_cases hp : s.par.Wf
    · exact .inl ⟨rfl, hp, if_pos hp⟩
    · exact .inr (.inl ⟨rfl, hp, if_neg hp⟩)
  | halted e => exact .inr (.inr ⟨e, rfl, rfl⟩)

/-- A clock cycle of a running processor over arguments that R6 allows. -/
theorem clockCycle_running {s : State} (d : Word → State → State) (h : s.status = .running) (hp : s.par.Wf) :
    clockCycle d s = .next (cycle d s) := by
  unfold clockCycle; rw [h]; exact if_pos hp

/-- A clock cycle of a running processor over arguments that R6 does not allow. -/
theorem clockCycle_refused {s : State} (d : Word → State → State) (h : s.status = .running) (hp : ¬s.par.Wf) :
    clockCycle d s = .refused .unsupportedArguments := by
  unfold clockCycle; rw [h]; exact if_neg hp

/-- A clock cycle of a halted processor. -/
theorem clockCycle_halted {s : State} {e : ErrorRecord} (d : Word → State → State) (h : s.status = .halted e) :
    clockCycle d s = .fault (.halted e) := by
  unfold clockCycle; rw [h]

/-- What a clock cycle that answers a next state is. -/
theorem clockCycle_next {d : Word → State → State} {s t : State} (h : clockCycle d s = .next t) :
    s.status = .running ∧ s.par.Wf ∧ t = cycle d s := by
  rcases clockCycle_cases d s with ⟨hr, hp, hc⟩ | ⟨_, _, hc⟩ | ⟨_, _, hc⟩ <;> rw [hc] at h
  · exact ⟨hr, hp, (Host.Outcome.next.inj h).symm⟩
  · cases h
  · cases h

/-- Every step is a clock cycle with some Decode. -/
theorem step_eq_clockCycle (s : State) : ∃ d, DecodesOnly d ∧ step s = clockCycle d s := by
  unfold step
  split
  · split
    · rename_i i _
      exact ⟨_, issue_decodesOnly _, exec_eq_clockCycle i s⟩
    · exact ⟨_, decodeFails_decodesOnly _, rfl⟩
  · exact ⟨_, idle_decodesOnly, rfl⟩

/-- What an instruction that answers a next state is. -/
theorem exec_next {i : Instr} {s t : State} (h : exec i s = .next t) :
    s.status = .running ∧ s.par.Wf ∧ t = cycle (issue (issueOf i)) s :=
  clockCycle_next (exec_eq_clockCycle i s ▸ h)

/-- A step of a running core over arguments that R6 allows answers a next state. -/
theorem step_running {s : State} (h : s.status = .running) (hp : s.par.Wf) :
    ∃ d, DecodesOnly d ∧ step s = .next (cycle d s) := by
  obtain ⟨d, hd, hs⟩ := step_eq_clockCycle s
  exact ⟨d, hd, by rw [hs, clockCycle_running d h hp]⟩

/-- What a step that answers a next state is. -/
theorem step_next {s t : State} (h : step s = .next t) :
    s.status = .running ∧ s.par.Wf ∧ ∃ d, DecodesOnly d ∧ t = cycle d s := by
  obtain ⟨d, hd, hs⟩ := step_eq_clockCycle s
  obtain ⟨hr, hp, ht⟩ := clockCycle_next (hs ▸ h)
  exact ⟨hr, hp, d, hd, ht⟩

end Sys2Proof.Machine
end

