-- ==== Sys2Proof/Laws/Cycle.lean ====
section
/-! SUPPORT. What one whole cycle is and leaves alone, in terms of `olderStages` (steps 0 to 3); the older stages of a
pipeline with nothing in some of its latches. -/

namespace Sys2Proof.Machine

/-! ## The older stages -/

@[simp] theorem olderStages_lf (s : State) : (olderStages s).lf = s.lf := by
  unfold olderStages
  rw [State.andThen_keeps State.lf _ _ (executeStep_lf _), State.andThen_keeps State.lf _ _ (memAccessStep_lf _)]
  simp

@[simp] theorem olderStages_ld (s : State) : (olderStages s).ld = s.ld := by
  unfold olderStages
  rw [State.andThen_keeps State.ld _ _ (executeStep_ld _), State.andThen_keeps State.ld _ _ (memAccessStep_ld _)]
  simp

@[simp] theorem olderStages_par (s : State) : (olderStages s).par = s.par := by
  unfold olderStages
  rw [State.andThen_keeps State.par _ _ (executeStep_par _), State.andThen_keeps State.par _ _ (memAccessStep_par _)]
  simp

@[simp] theorem olderStages_stall (s : State) : (olderStages s).stall = false := by
  unfold olderStages
  rw [State.andThen_keeps State.stall _ _ (executeStep_stall _), State.andThen_keeps State.stall _ _ (memAccessStep_stall _)]
  simp

@[simp] theorem olderStages_bubbleNext (s : State) : (olderStages s).bubbleNext = false := by
  unfold olderStages
  rw [State.andThen_keeps State.bubbleNext _ _ (executeStep_bubbleNext _), State.andThen_keeps State.bubbleNext _ _ (memAccessStep_bubbleNext _)]
  simp

/-- Steps 2 and 3 leave `regs` as Write-back leaves it. -/
theorem olderStages_regs (s : State) : (olderStages s).regs = (writeBackStep s.clearHazards).regs := by
  unfold olderStages
  rw [State.andThen_keeps State.regs _ _ (executeStep_regs _), State.andThen_keeps State.regs _ _ (memAccessStep_regs _)]

/-- Steps 2 and 3 leave `flag` as Write-back leaves it. -/
theorem olderStages_flag (s : State) : (olderStages s).flag = (writeBackStep s.clearHazards).flag := by
  unfold olderStages
  rw [State.andThen_keeps State.flag _ _ (executeStep_flag _), State.andThen_keeps State.flag _ _ (memAccessStep_flag _)]

/-- Steps 2 and 3 leave `lw` as Write-back leaves it. -/
theorem olderStages_lw (s : State) : (olderStages s).lw = (writeBackStep s.clearHazards).lw := by
  unfold olderStages
  rw [State.andThen_keeps State.lw _ _ (executeStep_lw _), State.andThen_keeps State.lw _ _ (memAccessStep_lw _)]

/-- Memory is as Memory-access leaves it. -/
theorem olderStages_mem (s : State) :
    (olderStages s).mem = ((writeBackStep s.clearHazards).andThen memAccessStep).mem := by
  unfold olderStages
  rw [State.andThen_keeps State.mem _ _ (executeStep_mem _)]

/-- If no older stage raised, they all ran. -/
theorem olderStages_running {s : State} (h : (olderStages s).status = .running) :
    (writeBackStep s.clearHazards).status = .running ∧
    (memAccessStep (writeBackStep s.clearHazards)).status = .running ∧
    olderStages s = executeStep (memAccessStep (writeBackStep s.clearHazards)) := by
  unfold olderStages at h ⊢
  rcases State.andThen_cases (writeBackStep s.clearHazards) memAccessStep with ⟨h1, e1⟩ | ⟨e, h1, e1⟩
  · rw [e1] at h ⊢
    rcases State.andThen_cases (memAccessStep (writeBackStep s.clearHazards)) executeStep with ⟨h2, e2⟩ | ⟨e, h2, e2⟩
    · exact ⟨h1, h2, e2⟩
    · rw [e2, h2] at h; cases h
  · rw [e1, State.andThen_halted _ h1, h1] at h; cases h

/-- The older stages when the Decode, Execute and Memory latches are empty. -/
theorem Quiet.olderStages {s : State} {w fpc : Word} (h : Quiet s w fpc) :
    Machine.olderStages s = { s.clearHazards with lw := .empty, lm := .empty, le := .empty } := by
  have hst := h.running
  simp [Machine.olderStages, writeBackStep, memAccessStep, executeStep, State.andThen, h.ld, h.le, h.lm, hst]

/-- A quiet instruction is ready. -/
theorem Quiet.ready {s : State} {w fpc : Word} (h : Quiet s w fpc) : Ready s w fpc where
  par := h.par
  running := h.running
  lf := h.lf
  bubble := h.bubble
  older := by rw [h.olderStages]; exact h.running
  noFlush := by rw [h.olderStages]; rfl
  fetch := .inr (by rw [h.olderStages]; exact h.fetch)

/-! ## One cycle -/

theorem cycle_regs {d : Word → State → State} (hd : DecodesOnly d) (s : State) :
    (cycle d s).regs = (olderStages s).regs := by
  unfold cycle
  rw [State.andThen_keeps State.regs _ _ (fetchStep_regs _ _), State.andThen_keeps State.regs _ _ (decodeStep_regs hd _ _)]

theorem cycle_flag {d : Word → State → State} (hd : DecodesOnly d) (s : State) :
    (cycle d s).flag = (olderStages s).flag := by
  unfold cycle
  rw [State.andThen_keeps State.flag _ _ (fetchStep_flag _ _), State.andThen_keeps State.flag _ _ (decodeStep_flag hd _ _)]

theorem cycle_le {d : Word → State → State} (hd : DecodesOnly d) (s : State) :
    (cycle d s).le = (olderStages s).le := by
  unfold cycle
  rw [State.andThen_keeps State.le _ _ (fetchStep_le _ _), State.andThen_keeps State.le _ _ (decodeStep_le hd _ _)]

theorem cycle_lm {d : Word → State → State} (hd : DecodesOnly d) (s : State) :
    (cycle d s).lm = (olderStages s).lm := by
  unfold cycle
  rw [State.andThen_keeps State.lm _ _ (fetchStep_lm _ _), State.andThen_keeps State.lm _ _ (decodeStep_lm hd _ _)]

theorem cycle_lw {d : Word → State → State} (hd : DecodesOnly d) (s : State) :
    (cycle d s).lw = (olderStages s).lw := by
  unfold cycle
  rw [State.andThen_keeps State.lw _ _ (fetchStep_lw _ _), State.andThen_keeps State.lw _ _ (decodeStep_lw hd _ _)]

theorem cycle_flush {d : Word → State → State} (hd : DecodesOnly d) (s : State) :
    (cycle d s).flush = (olderStages s).flush := by
  unfold cycle
  rw [State.andThen_keeps State.flush _ _ (fetchStep_flush _ _), State.andThen_keeps State.flush _ _ (decodeStep_flush hd _ _)]

theorem cycle_mem {d : Word → State → State} (hd : DecodesOnly d) (s : State) :
    (cycle d s).mem = (olderStages s).mem := by
  unfold cycle
  rw [State.andThen_keeps State.mem _ _ (fetchStep_mem _ _), State.andThen_keeps State.mem _ _ (decodeStep_mem hd _ _)]

theorem cycle_par {d : Word → State → State} (hd : DecodesOnly d) (s : State) : (cycle d s).par = s.par := by
  unfold cycle
  rw [State.andThen_keeps State.par _ _ (fetchStep_par _ _), State.andThen_keeps State.par _ _ (decodeStep_par hd _ _),
    olderStages_par]

/-- A cycle whose older stages raise nothing. -/
theorem cycle_of_running {d : Word → State → State} {s : State} (h : (olderStages s).status = .running) :
    cycle d s = (decodeStep s.bubbleNext d (olderStages s)).andThen (fetchStep s.stall) := by
  unfold cycle; rw [State.andThen_running _ h]

/-- A cycle one of whose older stages raises ends there. -/
theorem cycle_of_halted {d : Word → State → State} {s : State} {e : ErrorRecord}
    (h : (olderStages s).status = .halted e) : cycle d s = olderStages s := by
  unfold cycle; rw [State.andThen_halted _ h, State.andThen_halted _ h]

/-- A cycle in which Decode acts on the word `w`. -/
theorem AtDecode.cycle {s : State} {w fpc : Word} (h : AtDecode s w fpc) (d : Word → State → State) :
    Machine.cycle d s = (d fpc (olderStages s)).andThen (fetchStep s.stall) := by
  rw [cycle_of_running h.older]
  simp [decodeStep, h.noFlush, h.bubble, h.lf]

/-- The range checks pass for a well-formed instruction. -/
theorem operandError_of_wf {i : Instr} (h : i.wf = true) : operandError i.rd i.rs1 i.src2 = none := by
  simp only [Instr.wf, regFieldWf, Bool.and_eq_true, decide_eq_true_eq] at h
  obtain ⟨⟨h1, h2⟩, h3⟩ := h
  unfold operandError
  rw [if_neg (by omega), if_neg (by omega)]
  cases hs : i.src2 with
  | imm v => rfl
  | reg k =>
    rw [hs] at h3
    simp only [Src2.wf, Bool.and_eq_true, decide_eq_true_eq] at h3
    simp [src2Index, h3]

/-- Every register index 0..9 is readable in Decode. -/
theorem readOperand_some (s : State) {k : Nat} (h : k ≤ 9) (fpc : Word) : ∃ v, readOperand s k fpc = some v := by
  unfold readOperand
  split
  · exact ⟨_, rfl⟩
  · have := s.readReg_isSome k
    rw [decide_eq_true h] at this
    exact Option.isSome_iff_exists.1 this

/-- The source-2 operand of a well-formed instruction is readable. -/
theorem readSource2_some (s : State) {src2 : Src2} (h : src2.wf = true) (fpc : Word) :
    ∃ v, readSource2 s src2 fpc = some v := by
  cases src2 with
  | imm v => exact ⟨_, rfl⟩
  | reg k =>
    simp only [Src2.wf, Bool.and_eq_true, decide_eq_true_eq] at h
    obtain ⟨v, hv⟩ := readOperand_some s (k := k.toInt.toNat) (by omega) fpc
    exact ⟨v, by simp [readSource2, src2Index, h, hv]⟩

/-- Decode of a well-formed instruction: no error, and the Decode latch with its operands. -/
theorem issue_of_wf {i : Instr} (h : i.wf = true) (fpc : Word) (s : State) :
    ∃ a b sd, readOperand s (normSrc1 i) fpc = some a ∧ readSource2 s i.src2 fpc = some b ∧
      readOperand s (normDest i) fpc = some sd ∧
      issue (issueOf i) fpc s =
        { s with
          ld := .full { op := i.mnemonic, ctl := signalsFor i.mnemonic, rd := normDest i, a := a, b := b, sd := sd,
                        fpc := fpc }
          stall := decide (i.mnemonic = .cmp)
          bubbleNext := decide (i.mnemonic = .cmp) } := by
  have hw := h
  simp only [Instr.wf, regFieldWf, Config.numRegs, Bool.and_eq_true, decide_eq_true_eq] at hw
  obtain ⟨⟨h1, h2⟩, h3⟩ := hw
  obtain ⟨a, ha⟩ := readOperand_some s (k := normSrc1 i) (by unfold normSrc1; split <;> omega) fpc
  obtain ⟨sd, hsd⟩ := readOperand_some s (k := normDest i) (by unfold normDest; split <;> omega) fpc
  obtain ⟨b, hb⟩ := readSource2_some s h3 fpc
  refine ⟨a, b, sd, ha, hb, hsd, ?_⟩
  unfold issue
  simp [issueOf, operandError_of_wf h, ha, hb, hsd]

end Sys2Proof.Machine
end

