-- ==== Sys2Proof/Laws/HostPort.lean ====
section
/-! SUPPORT. What `new` can answer, and the state it makes. -/

namespace Sys2Proof.Machine

/-- What `new` can answer. -/
theorem newProcessor_cases (par : Config.Params) (handle : Option Memory) :
    (handle = none ∧ newProcessor par handle = .error .noRegion) ∨
    (∃ image, handle = some image ∧ par.Wf ∧ image.Within par ∧ newProcessor par handle = .ok (State.new par image)) ∨
    (∃ image, handle = some image ∧ ¬(par.Wf ∧ image.Within par) ∧
      newProcessor par handle = .error .unsupportedArguments) := by
  cases handle with
  | none => exact .inl ⟨rfl, rfl⟩
  | some image =>
    by_cases h : par.Wf ∧ image.Within par
    · exact .inr (.inl ⟨image, rfl, h.1, h.2, if_pos h⟩)
    · exact .inr (.inr ⟨image, rfl, h, if_neg h⟩)

@[simp] theorem State.new_regs (par : Config.Params) (image : Memory) :
    (State.new par image).regs = Vector.replicate 8 0 := rfl
@[simp] theorem State.new_pc (par : Config.Params) (image : Memory) : (State.new par image).pc = par.pcReset := rfl
@[simp] theorem State.new_flag (par : Config.Params) (image : Memory) : (State.new par image).flag = 0 := rfl
@[simp] theorem State.new_lf (par : Config.Params) (image : Memory) : (State.new par image).lf = .empty := rfl
@[simp] theorem State.new_ld (par : Config.Params) (image : Memory) : (State.new par image).ld = .empty := rfl
@[simp] theorem State.new_le (par : Config.Params) (image : Memory) : (State.new par image).le = .empty := rfl
@[simp] theorem State.new_lm (par : Config.Params) (image : Memory) : (State.new par image).lm = .empty := rfl
@[simp] theorem State.new_lw (par : Config.Params) (image : Memory) : (State.new par image).lw = .empty := rfl
@[simp] theorem State.new_stall (par : Config.Params) (image : Memory) : (State.new par image).stall = false := rfl
@[simp] theorem State.new_bubbleNext (par : Config.Params) (image : Memory) :
    (State.new par image).bubbleNext = false := rfl
@[simp] theorem State.new_flush (par : Config.Params) (image : Memory) : (State.new par image).flush = false := rfl
@[simp] theorem State.new_status (par : Config.Params) (image : Memory) :
    (State.new par image).status = .running := rfl
@[simp] theorem State.new_mem (par : Config.Params) (image : Memory) : (State.new par image).mem = image := rfl
@[simp] theorem State.new_par (par : Config.Params) (image : Memory) : (State.new par image).par = par := rfl

end Sys2Proof.Machine
end

