-- ==== Sys2Proof/Laws/Memory.lean ====
section
/-! SUPPORT. The laws of the byte list: reads after writes, and the canonical form. -/

namespace Sys2Proof.Machine

/-- Every listed address of `m` is above `a`. -/
def Memory.Above (a : Nat) (m : Memory) : Prop := ∀ c ∈ m, a < c.1

/-- A byte that is listed is the byte read. -/
theorem Memory.byteAt_of_given {m : Memory} {a : Nat} {v : Byte} (h : m.given a = some v) : m.byteAt a = v := by
  rw [Memory.byteAt, h]; rfl

/-- A byte that is not listed is the free value of its address. -/
theorem Memory.byteAt_of_not_given {m : Memory} {a : Nat} (h : m.given a = none) :
    m.byteAt a = Config.memInit a := by
  rw [Memory.byteAt, h]; rfl

/-- An entry says what its address lists and bounds the addresses of the rest, in the canonical form. -/
theorem Memory.wf_cons {a : Nat} {v : Byte} {rest : Memory} :
    Memory.wf ((a, v) :: rest) = true ↔ Memory.Above a rest ∧ Memory.wf rest = true := by
  induction rest generalizing a v with
  | nil => simp [Memory.wf, Memory.Above]
  | cons c rest ih =>
    obtain ⟨b, w⟩ := c
    rw [Memory.wf, Bool.and_eq_true, decide_eq_true_eq]
    refine and_congr_left fun h => ⟨fun hab c hc => ?_, fun h' => h' _ (List.mem_cons_self ..)⟩
    rcases List.mem_cons.1 hc with rfl | hc
    · exact hab
    · exact Nat.lt_trans hab ((ih.1 h).1 c hc)

/-- One byte written is the byte listed there; what is listed elsewhere is as before. -/
theorem Memory.given_setByte (m : Memory) (a x : Nat) (v : Byte) :
    (m.setByte a v).given x = if x = a then some v else m.given x := by
  induction m with
  | nil => rfl
  | cons c m ih =>
    obtain ⟨b, w⟩ := c
    rw [Memory.setByte]
    split
    · rfl
    · split
      · rename_i hae
        subst hae
        by_cases hx : x = a <;> simp [Memory.given, hx]
      · rename_i hae
        rw [Memory.given, Memory.given, ih]
        by_cases hxb : x = b
        · simp [hxb, Ne.symm hae]
        · simp [hxb]

/-- One byte written: that address reads the new byte, every other address reads as before. -/
theorem Memory.byteAt_setByte (m : Memory) (a x : Nat) (v : Byte) :
    (m.setByte a v).byteAt x = if x = a then v else m.byteAt x := by
  unfold Memory.byteAt
  rw [Memory.given_setByte]
  split <;> rfl

/-- The addresses a write can list. -/
theorem Memory.mem_setByte {m : Memory} {a : Nat} {v : Byte} {c : Host.Cell} (h : c ∈ m.setByte a v) :
    c.1 = a ∨ c ∈ m := by
  induction m with
  | nil => exact .inl (by rw [List.mem_singleton.1 h])
  | cons d m ih =>
    obtain ⟨b, w⟩ := d
    rw [Memory.setByte] at h
    split at h
    · rcases List.mem_cons.1 h with rfl | h
      · exact .inl rfl
      · exact .inr h
    · split at h
      · rcases List.mem_cons.1 h with rfl | h
        · exact .inl rfl
        · exact .inr (List.mem_cons_of_mem _ h)
      · rcases List.mem_cons.1 h with rfl | h
        · exact .inr (List.mem_cons_self ..)
        · exact (ih h).imp id (List.mem_cons_of_mem _)

/-- A byte write keeps the canonical form. -/
theorem Memory.setByte_wf {m : Memory} (h : m.wf = true) (a : Nat) (v : Byte) : (m.setByte a v).wf = true := by
  induction m with
  | nil => rfl
  | cons c m ih =>
    obtain ⟨b, w⟩ := c
    obtain ⟨habove, hwf⟩ := Memory.wf_cons.1 h
    rw [Memory.setByte]
    split
    · rename_i hab
      refine Memory.wf_cons.2 ⟨fun c hc => ?_, h⟩
      rcases List.mem_cons.1 hc with rfl | hc
      · exact hab
      · exact Nat.lt_trans hab (habove c hc)
    · split
      · rename_i hae
        exact Memory.wf_cons.2 ⟨hae ▸ habove, hwf⟩
      · refine Memory.wf_cons.2 ⟨fun c hc => ?_, ih hwf⟩
        rcases Memory.mem_setByte hc with hc | hc
        · omega
        · exact habove c hc

/-- A word write keeps the canonical form. -/
theorem Memory.writeWord_wf {m : Memory} (h : m.wf = true) (a : Nat) (u : Word) : (m.writeWord a u).wf = true :=
  Memory.setByte_wf (Memory.setByte_wf (Memory.setByte_wf (Memory.setByte_wf h _ _) _ _) _ _) _ _

/-- What a word write does to each byte. -/
theorem Memory.byteAt_writeWord (m : Memory) (a x : Nat) (u : Word) :
    (m.writeWord a u).byteAt x = if a ≤ x ∧ x < a + 4 then byteOfWord u (x - a) else m.byteAt x := by
  rw [Memory.writeWord, Memory.byteAt_setByte, Memory.byteAt_setByte, Memory.byteAt_setByte, Memory.byteAt_setByte]
  by_cases e3 : x = a + 3
  · rw [if_pos e3, if_pos (by omega), show x - a = 3 by omega]
  by_cases e2 : x = a + 2
  · rw [if_neg e3, if_pos e2, if_pos (by omega), show x - a = 2 by omega]
  by_cases e1 : x = a + 1
  · rw [if_neg e3, if_neg e2, if_pos e1, if_pos (by omega), show x - a = 1 by omega]
  by_cases e0 : x = a
  · rw [if_neg e3, if_neg e2, if_neg e1, if_pos e0, if_pos (by omega), show x - a = 0 by omega]
  · rw [if_neg e3, if_neg e2, if_neg e1, if_neg e0, if_neg (by omega)]

/-- A word write lists no address but the four of the access. -/
theorem Memory.mem_writeWord {m : Memory} {a : Nat} {u : Word} {c : Host.Cell} (h : c ∈ m.writeWord a u) :
    (a ≤ c.1 ∧ c.1 < a + 4) ∨ c ∈ m := by
  rw [Memory.writeWord] at h
  rcases Memory.mem_setByte h with h | h
  · exact .inl (by omega)
  rcases Memory.mem_setByte h with h | h
  · exact .inl (by omega)
  rcases Memory.mem_setByte h with h | h
  · exact .inl (by omega)
  rcases Memory.mem_setByte h with h | h
  · exact .inl (by omega)
  exact .inr h

end Sys2Proof.Machine
end

