-- ==== Sys2Proof/Laws/PerInstr.lean ====
section
/-! SUPPORT. Laws stated once per instruction. Family `Rebuild`: the fields an instruction is encoded from give it
back, and the decoder's range checks on them are its well-formedness. -/

namespace Sys2Proof.Laws

/-- The range checks of 30_encoding.md R76 (cases 2 to 4) fail for no operand fields but the ill-formed ones. -/
theorem operandError_isNone (rd rs1 : BitVec 4) (src2 : Src2) :
    (operandError rd rs1 src2).isNone = (regFieldWf rd && regFieldWf rs1 && src2.wf) := by
  unfold operandError regFieldWf
  by_cases h1 : Config.numRegs ≤ rd.toNat
  · simp [h1]
  by_cases h2 : Config.numRegs ≤ rs1.toNat
  · simp [h1, h2]
  rw [if_neg h1, if_neg h2, decide_eq_true (Nat.lt_of_not_le h1), decide_eq_true (Nat.lt_of_not_le h2)]
  cases src2 with
  | imm v => rfl
  | reg k =>
    by_cases h : 0 ≤ k.toInt ∧ k.toInt ≤ 9
    · simp [src2Index, Src2.wf, h]
    · simp [src2Index, Src2.wf, h]; omega

/-- An instruction is the one made of its mnemonic and its three operand fields, and Decode refuses exactly the
ill-formed ones. -/
def Rebuild.Statement (i : Instr) : Prop :=
  mkInstr i.mnemonic i.rd i.rs1 i.src2 = i ∧ (operandError i.rd i.rs1 i.src2).isNone = i.wf

theorem Rebuild.load (rd rs1 : BitVec 4) (src2 : Src2) : Rebuild.Statement (.load rd rs1 src2) :=
  ⟨rfl, operandError_isNone rd rs1 src2⟩
theorem Rebuild.store (rd rs1 : BitVec 4) (src2 : Src2) : Rebuild.Statement (.store rd rs1 src2) :=
  ⟨rfl, operandError_isNone rd rs1 src2⟩
theorem Rebuild.add (rd rs1 : BitVec 4) (src2 : Src2) : Rebuild.Statement (.add rd rs1 src2) :=
  ⟨rfl, operandError_isNone rd rs1 src2⟩
theorem Rebuild.sub (rd rs1 : BitVec 4) (src2 : Src2) : Rebuild.Statement (.sub rd rs1 src2) :=
  ⟨rfl, operandError_isNone rd rs1 src2⟩
theorem Rebuild.and (rd rs1 : BitVec 4) (src2 : Src2) : Rebuild.Statement (.and rd rs1 src2) :=
  ⟨rfl, operandError_isNone rd rs1 src2⟩
theorem Rebuild.or (rd rs1 : BitVec 4) (src2 : Src2) : Rebuild.Statement (.or rd rs1 src2) :=
  ⟨rfl, operandError_isNone rd rs1 src2⟩
theorem Rebuild.xor (rd rs1 : BitVec 4) (src2 : Src2) : Rebuild.Statement (.xor rd rs1 src2) :=
  ⟨rfl, operandError_isNone rd rs1 src2⟩
theorem Rebuild.mov (rd rs1 : BitVec 4) (src2 : Src2) : Rebuild.Statement (.mov rd rs1 src2) :=
  ⟨rfl, operandError_isNone rd rs1 src2⟩
theorem Rebuild.cmp (rd rs1 : BitVec 4) (src2 : Src2) : Rebuild.Statement (.cmp rd rs1 src2) :=
  ⟨rfl, operandError_isNone rd rs1 src2⟩
theorem Rebuild.brn (rd rs1 : BitVec 4) (src2 : Src2) : Rebuild.Statement (.brn rd rs1 src2) :=
  ⟨rfl, operandError_isNone rd rs1 src2⟩
theorem Rebuild.beq (rd rs1 : BitVec 4) (src2 : Src2) : Rebuild.Statement (.beq rd rs1 src2) :=
  ⟨rfl, operandError_isNone rd rs1 src2⟩
theorem Rebuild.bne (rd rs1 : BitVec 4) (src2 : Src2) : Rebuild.Statement (.bne rd rs1 src2) :=
  ⟨rfl, operandError_isNone rd rs1 src2⟩

end Sys2Proof.Laws
end

