-- ==== Sys2Proof/Tests/Slice0.lean ====
section
/-! SUPPORT. The model's own tests: ill-formed terms, words written out from the spec's encoding, one step per
instruction (at most two tests each) with expected values from the spec's examples, and for every statement with
hypotheses a state that meets them. -/

namespace Sys2Proof.Tests

open Sys2Proof.Machine

/-! ## Well-formedness: each check refuses an ill-formed term -/

theorem test_wf_accepts : (Instr.add 9 9 (.reg 9)).wf = true ∧ (Instr.mov 0 0 (.imm 0xFFFF)).wf = true := by decide
theorem test_wf_refuses_rd : (Instr.add 10 1 (.reg 2)).wf = false := by decide
theorem test_wf_refuses_rs1 : (Instr.mov 1 10 (.imm 5)).wf = false := by decide
theorem test_wf_refuses_src2_above : (Instr.brn 8 0 (.reg 10)).wf = false := by decide
theorem test_wf_refuses_src2_below : (Instr.load 1 2 (.reg 0xFFFF)).wf = false := by decide

/-! ## Decoding: words written bit by bit (30_encoding.md R71: op, imm, rd, rs1, src2; R74 for the opcode) -/

abbrev read (w : Word) : Except DecodeError Instr := decodeWord Config.defaultOpcodeMap w

theorem test_decode_load : read 0b0000000_1_0001_0010_0000000000000100 = .ok (.load 1 2 (.imm 4)) := by decide
theorem test_decode_store : read 0b0000001_1_0011_0000_0000000000000000 = .ok (.store 3 0 (.imm 0)) := by decide
theorem test_decode_add : read 0b0000010_0_0011_0001_0000000000000010 = .ok (.add 3 1 (.reg 2)) := by decide
theorem test_decode_sub : read 0b0000011_1_0001_0001_0000000000000001 = .ok (.sub 1 1 (.imm 1)) := by decide
theorem test_decode_and : read 0b0000100_1_0011_0001_0000111100001111 = .ok (.and 3 1 (.imm 0x0F0F)) := by decide
theorem test_decode_or : read 0b0000101_1_0010_0000_1000000000000000 = .ok (.or 2 0 (.imm 0x8000)) := by decide
theorem test_decode_xor : read 0b0000110_0_0001_0001_0000000000000001 = .ok (.xor 1 1 (.reg 1)) := by decide
theorem test_decode_mov : read 0b0000111_0_0010_0000_0000000000001001 = .ok (.mov 2 0 (.reg 9)) := by decide
theorem test_decode_cmp : read 0b0001000_1_0001_0000_0000000000000011 = .ok (.cmp 1 0 (.imm 3)) := by decide
theorem test_decode_brn : read 0b0001001_1_1000_0000_0000000000001100 = .ok (.brn 8 0 (.imm 12)) := by decide
theorem test_decode_beq : read 0b0001010_1_1000_0000_1111111111111100 = .ok (.beq 8 0 (.imm 0xFFFC)) := by decide
theorem test_decode_bne : read 0b0001011_1_1000_0000_0000000000001000 = .ok (.bne 8 0 (.imm 8)) := by decide

/-- 60_exceptions.md R205: the opcode is checked before the registers; R112: MOV's unused `rs1` is checked. -/
theorem test_decode_refuses :
    read 0xFEFFFFFF = .error .invalidOpcode ∧ read 0x18000000 = .error .invalidOpcode ∧
    read 0x0FA00000 = .error .invalidRd ∧ read 0x0F1A0005 = .error .invalidRs1 ∧
    read 0x0410000A = .error .invalidSrc2 ∧ read 0x0410FFFF = .error .invalidSrc2 := by decide

/-- Under another map the same bits are another mnemonic (30_encoding.md R74). -/
theorem test_decode_other_map :
    decodeWord Config.defaultOpcodeMap.reverse 0x04310002 = .ok (.brn 3 1 (.reg 2)) := by decide

theorem test_decode_bytes :
    decodeBytes Config.defaultOpcodeMap [0x15, 0x80, 0xFF, 0xFC, 0x0F] = .ok (.beq 8 0 (.imm 0xFFFC), [0x0F]) ∧
    decodeBytes Config.defaultOpcodeMap [0x15, 0x80, 0xFF] = .error .truncated := by decide

theorem test_encode :
    encode Config.defaultOpcodeMap (.add 3 1 (.reg 2)) = 0x04310002 ∧
    encode Config.defaultOpcodeMap (.beq 8 0 (.imm 0xFFFC)) = 0x1580FFFC ∧
    encodeBytes Config.defaultOpcodeMap (.mov 1 0 (.imm 5)) = [0x0F, 0x10, 0x00, 0x05] := by decide

theorem test_table_word :
    decodeTableWord 32 0x02000000 = some (.store 0 0 (.reg 0)) ∧ decodeTableWord 32 0x16000000 = some (.bne 0 0 (.reg 0)) ∧
    decodeTableWord 32 0x18000000 = none := by decide

/-! ## A small machine: the region 0x10..0x4F, filled with `MOV R7, #0` (30_encoding.md R82) but for `ws` at 0x10 -/

def par : Config.Params := { lb := 16, ub := 80, pcReset := 16, opcodeMap := Config.defaultOpcodeMap }

def words : List Word → Nat → Memory → Memory
  | [], _, m => m
  | w :: ws, a, m => words ws (a + 4) (m.writeWord a w)

def image (ws : List Word) : Memory := words ws 16 (words (List.replicate 16 0x0F700000) 16 [])

/-- R0..R4 = 16, 5, 3, 76, 2^31 - 1; FLAG = 2^32; `w` stands at Decode, fetched from 0x10, with nothing before it. -/
def atDecode (w : Word) (ws : List Word := []) : State :=
  { State.new par (image (w :: ws)) with
    regs := #v[16, 5, 3, 76, 0x7FFFFFFF, 0, 0, 0], flag := 0x100000000
    pc := 20, lf := .full { word := w, fpc := 16 } }

/-- The states after `exec` and then `n` more steps. -/
def afterExec (i : Instr) (s : State) (n : Nat) : Option State :=
  match exec i s with
  | .next t => t.after n
  | _ => none

/-- The state after one step, tested by `p`. -/
def nextHas (o : Host.Outcome State Fault Refusal) (p : State → Bool) : Bool :=
  match o with
  | .next t => p t
  | _ => false

/-! ## One step: what Decode hands on (the spec's example of each instruction) -/

def decoded (i : Instr) (s : State) (rd : Nat) (a b sd : DWord) : Bool :=
  nextHas (exec i s) fun t =>
    t.ld == .full { op := i.mnemonic, ctl := signalsFor i.mnemonic, rd := rd, a := a, b := b, sd := sd, fpc := 16 } &&
    t.stall == (i.mnemonic == .cmp) && t.pc == 24 && t.lf == .full { word := 0x0F700000, fpc := 20 }

theorem test_load_decode : decoded (.load 1 0 (.imm 4)) (atDecode 0x01100004) 1 16 4 5 = true := by decide
theorem test_store_decode : decoded (.store 8 0 (.reg 9)) (atDecode 0x02800009) 8 16 0x100000000 16 = true := by decide
theorem test_add_decode : decoded (.add 3 1 (.reg 2)) (atDecode 0x04310002) 3 5 3 76 = true := by decide
theorem test_sub_decode : decoded (.sub 1 2 (.imm 0xFFFF)) (atDecode 0x0712FFFF) 1 3 (-1) 5 = true := by decide
theorem test_mov_decode : decoded (.mov 2 0 (.reg 8)) (atDecode 0x0E200008) 2 16 16 3 = true := by decide
theorem test_cmp_decode : decoded (.cmp 1 0 (.imm 3)) (atDecode 0x11100003) 9 5 3 0x100000000 = true := by decide
theorem test_brn_decode : decoded (.brn 8 0 (.imm 12)) (atDecode 0x1380000C) 9 16 12 0x100000000 = true := by decide

/-! ## One step: Execute, Memory-access and Write-back -/

/-- `op` in the Decode latch with operands `a` and `b`. -/
def atExecute (op : Mnemonic) (a b : DWord) : State :=
  { atDecode 0x0F700000 with
    ld := .full { op := op, ctl := signalsFor op, rd := 9, a := a, b := b, sd := 0, fpc := 12 } }

/-- The ALU result of the step. -/
def result (s : State) (v : DWord) : Bool :=
  nextHas (step s) fun t => match t.le with
    | .full p => p.res == v
    | _ => false

/-- R171: 2^31 - 1 + 1 is 2^31 in the 64-bit ALU. -/
theorem test_add_result : result (atExecute .add 0x7FFFFFFF 1) 0x80000000 = true := by decide
/-- R172: -2^31 - 1. -/
theorem test_sub_result : result (atExecute .sub (-0x80000000) 1) (-0x80000001) = true := by decide
/-- R173: -1 & 0x0F0F. -/
theorem test_and_result : result (atExecute .and (-1) 0x0F0F) 0x0F0F = true := by decide
/-- R174: 0x0F00 | 0x00F0. -/
theorem test_or_result : result (atExecute .or 0x0F00 0x00F0) 0x0FF0 = true := by decide
/-- R175: x ^ x. -/
theorem test_xor_result : result (atExecute .xor (-7) (-7)) 0 = true := by decide
/-- R176: the second operand. -/
theorem test_mov_result : result (atExecute .mov 76 5) 5 = true := by decide
/-- R180: -2^31 compared with 1, unsaturated. -/
theorem test_cmp_result : result (atExecute .cmp (-0x80000000) 1) (-0x80000001) = true := by decide

/-- R184: taken, PC is the target and the two upstream latches are empty. -/
def redirects (s : State) (target : Word) : Bool :=
  nextHas (step s) fun t => t.pc == target && t.flush && t.lf == .empty && t.ld == .empty

theorem test_brn_taken : redirects (atExecute .brn 16 12) 28 = true := by decide
/-- R182: FLAG = 2^32 is not zero, although its low 32 bits are. -/
theorem test_beq_reads_64_bits :
    redirects (atExecute .beq 16 12) 28 = false ∧ redirects { atExecute .beq 16 12 with flag := 0 } 28 = true := by decide
theorem test_bne_reads_64_bits :
    redirects (atExecute .bne 16 12) 28 = true ∧ redirects { atExecute .bne 16 12 with flag := 0 } 28 = false := by decide

/-- `op` in the Execute latch with address `res` and store data `sd`. -/
def atMemory (op : Mnemonic) (res sd : DWord) : State :=
  { atDecode 0x0F700000 with
    le := .full { op := op, ctl := signalsFor op, rd := 1, sd := sd, fpc := 12, res := res } }

/-- R160: the word at an address that is no multiple of 4, most significant byte first: 70 00 00 0F. -/
theorem test_load_reads : nextHas (step (atMemory .load 17 0)) (fun t => match t.lm with
    | .full p => p.md == some 0x7000000F
    | _ => false) = true := by decide
/-- R161: the low 32 bits of the store data, big-endian. -/
theorem test_store_writes : nextHas (step (atMemory .store 40 0x5_01020304)) (fun t =>
    t.mem.byteAt 40 == 1 && t.mem.byteAt 41 == 2 && t.mem.byteAt 42 == 3 && t.mem.byteAt 43 == 4 &&
    t.mem.byteAt 39 == 0 && t.mem.byteAt 44 == 0x0F) = true := by decide

/-- `op` in the Memory latch with destination `rd` and result `res`. -/
def atWriteBack (op : Mnemonic) (rd : Nat) (res : DWord) : State :=
  { atDecode 0x0F700000 with
    lm := .full { op := op, ctl := signalsFor op, rd := rd, res := res, fpc := 12, md := none } }

/-- R27: truncated into a general register, whole into FLAG, the next Fetch's address into PC (R228). -/
theorem test_write_back :
    nextHas (step (atWriteBack .add 2 0x80000000)) (fun t => t.regs[2] == 0x80000000) = true ∧
    nextHas (step (atWriteBack .add 9 0x80000000)) (fun t => t.flag == 0x80000000 && t.regs[2] == 3) = true ∧
    nextHas (step (atWriteBack .mov 8 40)) (fun t => t.pc == 44 && t.flush == false) = true := by decide

/-- A word placed after reset runs as the first step (notes/assumptions/5.md). -/
theorem test_placed_word :
    nextHas (step (State.reset.withFetchWord 32 0x0F100005)) (fun t => t.ld == .full
      { op := .mov, ctl := signalsFor .mov, rd := 1, a := 0, b := 5, sd := 0, fpc := 0 }) = true := by decide

/-- 40_pipeline.md R142: the first cycle after reset fetches. -/
theorem test_first_cycle :
    nextHas (step (State.new par (image [0x0F100005])))
      (fun t => t.lf == .full { word := 0x0F100005, fpc := 16 } && t.pc == 20 && t.ld == .empty) = true := by decide

/-- 20_memory.md R68: a Fetch of bytes the model was not given runs; the word is whatever they are. -/
theorem test_fetch_of_bytes_not_given :
    nextHas (step (State.new par [])) (fun t => t.status == .running && t.pc == 20 && t.lf.clean) = true := by decide

/-! ## Witnesses: for each statement with hypotheses, a state and operands that meet them -/

theorem wit_opcode_maps :
    Config.OpcodeMapWf Config.defaultOpcodeMap ∧ Config.OpcodeMapWf Config.defaultOpcodeMap.reverse := by decide

theorem wit_decodeOfEncode :
    Config.OpcodeMapWf Config.defaultOpcodeMap.reverse ∧ (Instr.store 9 9 (.reg 9)).wf = true ∧
    (Instr.beq 0 0 (.imm 0x8000)).wf = true := by decide

theorem wit_decodedWord :
    Config.OpcodeMapWf Config.defaultOpcodeMap ∧ read 0x16990009 = .ok (.bne 9 9 (.reg 9)) := by decide

theorem wit_encodingFormula :
    ((-32768 : Int) ≤ -32768 ∧ (-32768 : Int) ≤ 32767) ∧ ((-32768 : Int) ≤ 32767 ∧ (32767 : Int) ≤ 32767) := by decide

/-- One word for each clause, at the boundary of its field: op = 12, rd = 10, rs1 = 10, src2 = 10 and -1; and legal words
with op = 11, rd = rs1 = 9, and src2 = 0, 9 and the literal -32768. -/
theorem wit_decodeChecks :
    12 ≤ (fieldOp 0x18000000).toNat ∧
    ((fieldOp 0x16A00000).toNat < 12 ∧ 10 ≤ (fieldRd 0x16A00000).toNat) ∧
    ((fieldOp 0x169A0000).toNat < 12 ∧ (fieldRd 0x169A0000).toNat < 10 ∧ 10 ≤ (fieldRs1 0x169A0000).toNat) ∧
    ((fieldRs1 0x1699000A).toNat < 10 ∧ fieldImm 0x1699000A = 0 ∧ 9 < (fieldSrc2 0x1699000A).toInt) ∧
    ((fieldRs1 0x1699FFFF).toNat < 10 ∧ fieldImm 0x1699FFFF = 0 ∧ (fieldSrc2 0x1699FFFF).toInt < 0) ∧
    ((fieldRs1 0x16990009).toNat < 10 ∧ 0 ≤ (fieldSrc2 0x16990009).toInt ∧ (fieldSrc2 0x16990009).toInt ≤ 9) ∧
    ((fieldRs1 0x16990000).toNat < 10 ∧ 0 ≤ (fieldSrc2 0x16990000).toInt ∧ (fieldSrc2 0x16990000).toInt ≤ 9) ∧
    ((fieldRs1 0x17998000).toNat < 10 ∧ fieldImm 0x17998000 = 1) := by decide

theorem par_wf : par.Wf := by decide

/-- With nothing before it the word at Decode is `Quiet`. -/
theorem quiet (w : Word) (ws : List Word) : Quiet (atDecode w ws) w 16 :=
  ⟨par_wf, rfl, rfl, rfl, rfl, rfl, rfl, rfl, (by decide : inBounds par (20 : Word).toInt = true)⟩

/-- As `quiet`, with another FLAG. -/
theorem quiet_flag (w : Word) (ws : List Word) (f : DWord) : Quiet { atDecode w ws with flag := f } w 16 :=
  ⟨par_wf, rfl, rfl, rfl, rfl, rfl, rfl, rfl, (by decide : inBounds par (20 : Word).toInt = true)⟩

theorem wit_stepRuns :
    (atDecode 0x04310002).lf = .full { word := 0x04310002, fpc := 16 } ∧
    decodeWord (atDecode 0x04310002).par.opcodeMap 0x04310002 = .ok (.add 3 1 (.reg 2)) := by decide

/-- Every latch in use: a MOV to R1 in Write-back, a STORE in Memory-access, a BNE not taken in Execute. -/
def busy (w : Word) : State :=
  { atDecode w with
    flag := 0
    lm := .full { op := .mov, ctl := signalsFor .mov, rd := 1, res := 7, fpc := 4, md := none }
    le := .full { op := .store, ctl := signalsFor .store, rd := 1, sd := 0x0F700001, fpc := 8, res := 20 }
    ld := .full { op := .bne, ctl := signalsFor .bne, rd := 9, a := 16, b := 0, sd := 0, fpc := 12 } }

theorem ready_busy (w : Word) : Ready (busy w) w 16 :=
  { par := par_wf, running := rfl, lf := rfl, bubble := rfl, older := rfl, noFlush := rfl
    fetch := .inr (by decide : inBounds par (20 : Word).toInt = true) }

theorem wit_cycleFetches :
    Ready (busy 0x04310002) 0x04310002 16 ∧ (busy 0x04310002).stall = false ∧ (Instr.add 3 1 (.reg 2)).wf = true :=
  ⟨ready_busy _, rfl, rfl⟩

theorem wit_operandReads :
    ((0x0000 : BitVec 16).toInt = 0 ∧ (0x0009 : BitVec 16).toInt = 9) ∧ 9 < 10 ∧ 7 < 8 := by decide

theorem wit_everyInstructionIssues :
    Ready (busy 0x17800008) 0x17800008 16 ∧ (Instr.bne 8 0 (.imm 8)).wf = true := ⟨ready_busy _, rfl⟩

/-- Both ways a Decode can go: an instruction handed on, and one refused. -/
theorem wit_decodeWritesNothing :
    nextHas (exec (.add 3 1 (.reg 2)) (busy 0x04310002)) (fun t => t.status == .running) = true ∧
    nextHas (exec (.add 10 1 (.reg 2)) (busy 0x04A10002)) (fun t => t.status != .running) = true := by decide

/-! The flights: with nothing before it, `i` at Decode has readable operands, and the `n` steps after `exec` all run. -/

/-- The operands of `i` are `a` and `b`, and `exec` and `n` more steps answer next states. -/
def flies (i : Instr) (s : State) (n : Nat) (a b : DWord) : Bool :=
  i.wf && readOperand s (normSrc1 i) 16 == some a && readSource2 s i.src2 16 == some b && (afterExec i s n).isSome

theorem wit_aluFlights :
    (∀ w ws, Quiet (atDecode w ws) w 16) ∧
    flies (.add 9 4 (.imm 1)) (atDecode 0x05940001) 3 0x7FFFFFFF 1 = true ∧
    flies (.sub 1 1 (.reg 1)) (atDecode 0x06110001) 3 5 5 = true ∧
    flies (.and 0 9 (.imm 0xFFFF)) (atDecode 0x0909FFFF) 3 0x100000000 (-1) = true ∧
    flies (.or 2 0 (.imm 0x8000)) (atDecode 0x0B208000) 3 16 (-0x8000) = true ∧
    flies (.xor 7 8 (.reg 9)) (atDecode 0x0C780009) 3 16 0x100000000 = true ∧
    flies (.mov 8 0 (.imm 40)) (atDecode 0x0F800028) 3 16 40 = true := ⟨quiet, by decide⟩

/-- At the first and the last address of the region that holds a word: 16 and 76. -/
theorem wit_load :
    (∀ w ws, Quiet (atDecode w ws) w 16) ∧
    flies (.load 1 0 (.imm 0)) (atDecode 0x01100000) 3 16 0 = true ∧
    flies (.load 9 3 (.imm 0)) (atDecode 0x01930000) 3 76 0 = true ∧
    (par.lb : Int) ≤ ((16 : DWord) + 0).toInt ∧ ((76 : DWord) + 0).toInt + 4 ≤ (par.ub : Int) := ⟨quiet, by decide⟩

theorem wit_store :
    (∀ w ws, Quiet (atDecode w ws) w 16) ∧
    flies (.store 1 0 (.imm 0)) (atDecode 0x03100000) 3 16 0 = true ∧
    flies (.store 9 3 (.imm 0)) (atDecode 0x03930000) 3 76 0 = true ∧
    readOperand (atDecode 0x03930000) 9 16 = some 0x100000000 ∧
    (par.lb : Int) ≤ ((16 : DWord) + 0).toInt ∧ ((76 : DWord) + 0).toInt + 4 ≤ (par.ub : Int) := ⟨quiet, by decide⟩

/-- One byte below the region, one above the last word of it, and 2^32 + 16 (20_memory.md R51). -/
theorem wit_outOfBounds :
    (∀ w ws, Quiet (atDecode w ws) w 16) ∧
    flies (.load 1 0 (.imm 0xFFFF)) (atDecode 0x0110FFFF) 2 16 (-1) = true ∧
    flies (.store 1 3 (.imm 1)) (atDecode 0x03130001) 2 76 1 = true ∧
    flies (.load 1 9 (.reg 0)) (atDecode 0x00190000) 2 0x100000000 16 = true ∧
    ((16 : DWord) + (-1)).toInt < (par.lb : Int) ∧ (par.ub : Int) < ((76 : DWord) + 1).toInt + 4 := ⟨quiet, by decide⟩

theorem wit_cmp :
    (∀ w ws, Quiet (atDecode w ws) w 16) ∧
    flies (.cmp 1 0 (.imm 3)) (atDecode 0x11100003) 3 5 3 = true ∧ flies (.cmp 9 0 (.reg 9)) (atDecode 0x10900009) 3 0x100000000 0x100000000 = true ∧
    (5 : DWord) = (5 : Word).signExtend 64 ∧ (3 : DWord) = (3 : Word).signExtend 64 := ⟨quiet, by decide⟩

/-- BRN to the last word of the region and past it; BEQ and BNE taken and not taken, FLAG being 2^32 or 0. -/
theorem wit_branches :
    (∀ w ws, Quiet (atDecode w ws) w 16) ∧ (∀ w ws, Quiet { atDecode w ws with flag := 0 } w 16) ∧
    flies (.brn 3 0 (.imm 0)) (atDecode 0x13300000) 2 76 0 = true ∧
    flies (.brn 3 0 (.imm 1)) (atDecode 0x13300001) 2 76 1 = true ∧
    flies (.beq 8 0 (.imm 12)) (atDecode 0x1580000C) 3 16 12 = true ∧
    flies (.beq 8 0 (.imm 12)) { atDecode 0x1580000C with flag := 0 } 2 16 12 = true ∧
    flies (.bne 8 0 (.imm 12)) (atDecode 0x1780000C) 2 16 12 = true ∧
    flies (.bne 8 0 (.imm 12)) { atDecode 0x1780000C with flag := 0 } 3 16 12 = true := ⟨quiet, fun w ws => quiet_flag w ws 0, by decide⟩

/-- A LOAD and a STORE at the last word of the region, followed by `MOV R7, #0`; and an ADD whose third word is the
last of the region. -/
theorem wit_drained :
    (∀ w ws, Quiet (atDecode w ws) w 16) ∧
    flies (.load 1 3 (.imm 0)) (atDecode 0x01130000) 3 76 0 = true ∧
    flies (.store 1 3 (.imm 0)) (atDecode 0x03130000) 3 76 0 = true ∧
    inBounds par (((76 : DWord) + 0).toInt) = true ∧ inBounds par ((20 : Word).toInt + 8) = true ∧
    decodeWord par.opcodeMap ((atDecode 0x01130000).mem.readWord 20) = .ok (.mov 7 0 (.imm 0)) ∧
    decodeWord par.opcodeMap ((atDecode 0x01130000).mem.readWord 24) = .ok (.mov 7 0 (.imm 0)) ∧
    remapped Mnemonic.mov = false := ⟨quiet, by decide⟩

/-- `CMP R1, #3`, then a BEQ. -/
theorem wit_cmpReaches :
    (∀ w ws, Quiet (atDecode w ws) w 16) ∧
    flies (.cmp 1 0 (.imm 3)) (atDecode 0x11100003 [0x1580000C]) 3 5 3 = true ∧
    inBounds par ((20 : Word).toInt + 4) = true ∧
    decodeWord par.opcodeMap ((atDecode 0x11100003 [0x1580000C]).mem.readWord 20) = .ok (.beq 8 0 (.imm 12)) :=
  ⟨quiet, by decide⟩

/-- `ADD R3, R1, R2` and a LOAD; after `exec` and two steps the core still runs. -/
theorem wit_noForwarding :
    (∀ w ws, Quiet (atDecode w ws) w 16) ∧
    ((afterExec (.add 3 1 (.reg 2)) (atDecode 0x04310002) 2).map State.status) = some .running ∧
    ((afterExec (.load 1 0 (.imm 4)) (atDecode 0x01100004) 2).map State.status) = some .running ∧
    (signalsFor .load).regWrite = true ∧ (signalsFor .add).regWrite = true ∧ (Instr.add 3 1 (.reg 2)).wf = true ∧
    (Instr.load 1 0 (.imm 4)).wf = true := ⟨quiet, by decide⟩

/-- A CMP with the older stages busy, an invalid word waiting in the Fetch latch after it. -/
theorem wit_cmpBubble :
    Ready (busy 0x11100003) 0x11100003 16 ∧ (Instr.cmp 1 0 (.imm 3)).wf = true ∧
    ((afterExec (.cmp 1 0 (.imm 3)) (busy 0x11100003) 1).map State.status) = some .running ∧
    ((afterExec (.cmp 1 0 (.imm 3)) (atDecode 0x11100003 [0xFE000000]) 1).map State.status) = some .running :=
  ⟨ready_busy _, by decide, by decide, by decide⟩

/-- `CMP R1, #5` or `#3`, then BEQ or BNE. -/
theorem wit_branchAfterCmp :
    (∀ w ws, Quiet (atDecode w ws) w 16) ∧
    flies (.cmp 1 0 (.imm 5)) (atDecode 0x11100005 [0x1580000C]) 3 5 5 = true ∧
    flies (.cmp 1 0 (.imm 3)) (atDecode 0x11100003 [0x1780000C]) 3 5 3 = true ∧
    decodeWord par.opcodeMap ((atDecode 0x11100005 [0x1580000C]).mem.readWord 20) = .ok (.beq 8 0 (.imm 12)) ∧
    decodeWord par.opcodeMap ((atDecode 0x11100003 [0x1780000C]).mem.readWord 20) = .ok (.bne 8 0 (.imm 12)) := ⟨quiet, by decide⟩

/-- A taken branch in Execute, an invalid word in the Fetch latch. -/
def flushing : State :=
  { atDecode 0xFE000000 with
    ld := .full { op := .bne, ctl := signalsFor .bne, rd := 9, a := 12, b := 8, sd := 0, fpc := 12 } }

theorem wit_takenBranch :
    flushing.status = .running ∧ flushing.par.Wf ∧ (olderStages flushing).status = .running ∧
    ∃ p, flushing.ld = .full p ∧ p.ctl.branch = true ∧ taken p.op (olderStages flushing).flag = true :=
  ⟨rfl, par_wf, rfl, _, rfl, rfl, by decide⟩

/-- A CMP in the Decode latch with its bubble pending, an invalid word in the Fetch latch. -/
def bubbling : State :=
  { atDecode 0xFE000000 with
    stall := true, bubbleNext := true
    ld := .full { op := .cmp, ctl := signalsFor .cmp, rd := 9, a := 12, b := 8, sd := 0, fpc := 12 } }

theorem image_wf : (image [0xFE000000]).wf = true := by decide

theorem image_region : ∀ c ∈ image [0xFE000000], par.lb ≤ c.1 ∧ c.1 < par.ub := by decide

/-- The invariant of a running core with nothing in the Decode latch and no hazard pending. -/
theorem inv_front {s : State} (hp : s.par.Wf) (hm : s.mem.wf = true) (hr : ∀ c ∈ s.mem, s.par.lb ≤ c.1 ∧ c.1 < s.par.ub)
    (hf : s.lf.All fun p => inBounds s.par p.fpc.toInt = true)
    (he : s.le.All fun p => CarriedOk p.op p.ctl p.rd)
    (hl : s.lm.All fun p => CarriedOk p.op p.ctl p.rd ∧ p.md.isSome = p.ctl.memRead)
    (h : s.ld = .empty ∧ s.stall = false ∧ s.bubbleNext = false ∧ s.flush = false)
    (hc : s.clean = true) (hs : s.status = .running) : Inv s := by
  obtain ⟨h1, h4, h5, h6⟩ := h
  refine ⟨hp, hm, hr, hf, ?_, he, hl, ?_, ?_, ?_, ?_, fun _ => hc, ?_⟩ <;> simp [h1, h4, h5, h6, hs, Latch.All]

theorem inv_add : Inv (atDecode 0x04310002) :=
  inv_front par_wf (by decide) (by decide) (by decide : inBounds par (16 : Word).toInt = true) trivial trivial
    (by decide) (by decide) rfl

theorem inv_invalid : Inv (atDecode 0xFE000000) :=
  inv_front par_wf image_wf image_region (by decide : inBounds par (16 : Word).toInt = true) trivial trivial
    (by decide) (by decide) rfl

/-- After reset, PC one byte above the region's last word. -/
def runningOff : State := { State.new par (image []) with pc := 77 }

theorem inv_runningOff : Inv runningOff :=
  inv_front par_wf (by decide) (by decide) trivial trivial trivial (by decide) (by decide) rfl

theorem inv_flushing : Inv flushing where
  par := par_wf
  mem := image_wf
  region := image_region
  lf := (by decide : inBounds par (16 : Word).toInt = true)
  ld := ⟨rfl, by decide, fun _ => rfl⟩
  le := trivial
  lm := trivial
  hazards := rfl
  stalled := nofun
  pending := fun _ p h hc => by cases h; cases hc
  flushed := nofun
  running := fun _ => rfl
  halted := nofun

theorem inv_bubbling : Inv bubbling where
  par := par_wf
  mem := image_wf
  region := image_region
  lf := (by decide : inBounds par (16 : Word).toInt = true)
  ld := ⟨rfl, by decide, fun _ => rfl⟩
  le := trivial
  lm := trivial
  hazards := rfl
  stalled := fun _ => ⟨_, rfl, rfl⟩
  pending := fun _ _ _ _ => rfl
  flushed := nofun
  running := fun _ => rfl
  halted := nofun

theorem wit_undecodedWord :
    (Inv flushing ∧ flushing.status = .running ∧ (olderStages flushing).status = .running ∧
      (olderStages flushing).flush = true) ∧
    (Inv bubbling ∧ bubbling.status = .running ∧ (olderStages bubbling).status = .running ∧
      bubbling.bubbleNext = true) :=
  ⟨⟨inv_flushing, by decide⟩, ⟨inv_bubbling, by decide⟩⟩

theorem wit_eachCycle :
    (Inv flushing ∧ nextHas (step flushing) (fun t => t.status == .running && t.flush) = true) ∧
    (Inv bubbling ∧ nextHas (step bubbling) (fun t => t.status == .running && !t.flush) = true) ∧
    (Inv (atDecode 0x04310002) ∧ nextHas (step (atDecode 0x04310002)) (fun t => t.status == .running) = true) :=
  ⟨⟨inv_flushing, by decide⟩, ⟨inv_bubbling, by decide⟩, ⟨inv_add, by decide⟩⟩

/-- `MOV PC, #40` in Write-back. -/
theorem wit_writeBackToPc :
    Ready (atWriteBack .mov 8 40) 0x0F700000 16 ∧ (Instr.mov 7 0 (.imm 0)).wf = true ∧
    (atWriteBack .mov 8 40).stall = false ∧
    ∃ p, (atWriteBack .mov 8 40).lm = .full p ∧ p.ctl.regWrite = true ∧ p.rd = 8 ∧ writeBackValue p = some 40 :=
  ⟨{ par := par_wf, running := rfl, lf := rfl, bubble := rfl, older := rfl, noFlush := rfl
     fetch := .inr (by decide : inBounds par (40 : Word).toInt = true) }, rfl, rfl, _, rfl, rfl, rfl, rfl⟩

/-- A STORE to 40 in Memory-access, a LOAD of 32 + 8 behind it. -/
def storeLoad : State :=
  { atMemory .store 40 0x5_01020304 with
    ld := .full { op := .load, ctl := signalsFor .load, rd := 2, a := 32, b := 8, sd := 0, fpc := 16 } }

theorem wit_loadAfterStore :
    (∃ p q, storeLoad.le = .full p ∧ p.ctl = signalsFor .store ∧ inBounds storeLoad.par p.res.toInt = true ∧
      storeLoad.ld = .full q ∧ q.ctl = signalsFor .load ∧ q.a + q.b = p.res) ∧
    nextHas (step storeLoad) (fun t =>
      t.status == .running && (olderStages t).status == .running && nextHas (step t) fun _ => true) = true :=
  ⟨⟨_, _, rfl, rfl, by decide, rfl, rfl, rfl⟩, by decide⟩

/-- The STORE of `busy` writes the word at PC = 20. -/
theorem wit_fetchSeesStore :
    Ready (busy 0x04310002) 0x04310002 16 ∧ (busy 0x04310002).stall = false ∧ (Instr.add 3 1 (.reg 2)).wf = true ∧
    ∃ p, (busy 0x04310002).le = .full p ∧ p.ctl = signalsFor .store ∧
      p.res.toInt = (olderStages (busy 0x04310002)).pc.toInt :=
  ⟨ready_busy _, rfl, rfl, _, rfl, rfl, by decide⟩

theorem wit_registersChange :
    nextHas (step (atWriteBack .add 2 7)) (fun t => t.regs[2] != 3) = true ∧
    nextHas (step (atWriteBack .add 9 7)) (fun t => t.flag != 0x100000000) = true := by decide

/-- A Fetch, a taken branch, and a Write-back in a cycle whose Fetch faults. -/
theorem wit_pcChanges :
    nextHas (step (atDecode 0x04310002)) (fun t => t.pc != 20) = true ∧
    nextHas (step { flushing with pc := 24 }) (fun t => t.pc != 24) = true ∧
    nextHas (step (atWriteBack .mov 8 80)) (fun t => t.pc != 20) = true := by decide

theorem wit_memoryChanges :
    nextHas (step (atMemory .store 40 0x5_01020304)) (fun t => t.mem.byteAt 43 != 0x00) = true ∧
    (atMemory .store 40 0x5_01020304).mem.byteAt 43 = 0x00 := by decide

theorem wit_accessor : 9 < 10 ∧ 9 ≤ 9 ∧ (0 : Int) ≤ 0 ∧ (0 : Int) ≤ 9 ∧ (-1 : Int) < 0 ∧ (9 : Int) < 10 := by decide

/-- The largest values that overflow nothing. -/
theorem wit_aluLaws :
    let a : DWord := 0x3FFFFFFFFFFFFFFF
    let b : DWord := 0x4000000000000000
    (-2 ^ 63 ≤ a.toInt + b.toInt ∧ a.toInt + b.toInt < 2 ^ 63 ∧ -2 ^ 63 ≤ a.toInt - b.toInt ∧
      a.toInt - b.toInt < 2 ^ 63) := by decide

theorem atDecode_busy (w : Word) : AtDecode (busy w) w 16 := (ready_busy w).toAtDecode

/-- The older stages busy; the words of `wit_decodeChecks`. -/
theorem wit_invalidWord :
    AtDecode (busy 0x18FF0000) 0x18FF0000 16 ∧ AtDecode (busy 0x16A00000) 0x16A00000 16 ∧
    12 ≤ (fieldOp 0x18FF0000).toNat ∧ ((fieldOp 0x16A00000).toNat < 12 ∧ 10 ≤ (fieldRd 0x16A00000).toNat) ∧
    10 ≤ (fieldRs1 0x160A0000).toNat ∧ (fieldImm 0x1600000A = 0 ∧ 9 < (fieldSrc2 0x1600000A).toInt) ∧
    (fieldSrc2 0x1600FFFF).toInt < 0 :=
  ⟨atDecode_busy _, atDecode_busy _, by decide⟩

/-- An access one byte too low and one a byte too high, with a younger word that is invalid. -/
def segfaulting (op : Mnemonic) (res : DWord) : State :=
  { atDecode 0xFE000000 with
    lm := .full { op := .mov, ctl := signalsFor .mov, rd := 1, res := 7, fpc := 4, md := none }
    le := .full { op := op, ctl := signalsFor op, rd := 1, sd := 0, fpc := 12, res := res } }

theorem wit_memoryFault :
    ((segfaulting .load 15).status = .running ∧ (segfaulting .load 15).par.Wf ∧
      (writeBackStep (segfaulting .load 15).clearHazards).status = .running ∧
      ∃ p, (segfaulting .load 15).le = .full p ∧ p.ctl.memRead = true ∧ p.res.toInt < (par.lb : Int)) ∧
    ((segfaulting .store 77).status = .running ∧ (segfaulting .store 77).par.Wf ∧
      (writeBackStep (segfaulting .store 77).clearHazards).status = .running ∧
      ∃ p, (segfaulting .store 77).le = .full p ∧ p.ctl.memWrite = true ∧ (par.ub : Int) < p.res.toInt + 4) :=
  ⟨⟨rfl, par_wf, rfl, _, rfl, rfl, by decide⟩, ⟨rfl, par_wf, rfl, _, rfl, rfl, by decide⟩⟩

/-- PC one byte below the region, and one byte above its last word. -/
theorem wit_fetchFault (pc : Word) (h : pc = 15 ∨ pc = 77) :
    AtDecode { atDecode 0x04310002 with pc := pc } 0x04310002 16 ∧
    ((olderStages { atDecode 0x04310002 with pc := pc }).pc.toInt < (par.lb : Int) ∨
      (par.ub : Int) < (olderStages { atDecode 0x04310002 with pc := pc }).pc.toInt + 4) := by
  rcases h with rfl | rfl
  · exact ⟨{ par := par_wf, running := rfl, lf := rfl, bubble := rfl, older := rfl, noFlush := rfl }, by decide⟩
  · exact ⟨{ par := par_wf, running := rfl, lf := rfl, bubble := rfl, older := rfl, noFlush := rfl }, by decide⟩

theorem carried_store : CarriedOk .store (signalsFor .store) 1 := ⟨rfl, by decide, by decide⟩

theorem carried_mov : CarriedOk .mov (signalsFor .mov) 1 := ⟨rfl, by decide, by decide⟩

theorem inv_segfaulting : Inv (segfaulting .store 77) :=
  inv_front par_wf image_wf image_region (by decide : inBounds par (16 : Word).toInt = true) carried_store
    ⟨carried_mov, rfl⟩ (by decide) (by decide) rfl

/-- The three ways a cycle halts: a STORE out of bounds, an invalid word, a PC out of bounds. -/
theorem wit_halts :
    (Inv (segfaulting .store 77) ∧ nextHas (step (segfaulting .store 77)) (fun t => t.status != .running) = true) ∧
    (Inv (atDecode 0xFE000000) ∧ nextHas (step (atDecode 0xFE000000)) (fun t => t.status != .running) = true) ∧
    (Inv runningOff ∧ nextHas (step runningOff) (fun t => t.status != .running) = true) :=
  ⟨⟨inv_segfaulting, by decide⟩, ⟨inv_invalid, by decide⟩, ⟨inv_runningOff, by decide⟩⟩

/-- Halted, for each of the three codes. -/
theorem wit_halted (c : FaultCode) :
    ∃ e : ErrorRecord, e.code = c ∧ { atDecode 0 with status := .halted e }.status = .halted e :=
  ⟨{ code := c, stage := .decode, pc := 16 }, rfl, rfl⟩

/-- The first words at the bottom and at the top of the region. -/
theorem wit_firstCycle :
    (par.Wf ∧ Config.Params.Wf { par with pcReset := 72 }) ∧ (inBounds par par.pcReset.toInt = true ∧ inBounds par (par.pcReset + 4).toInt = true) ∧
    (inBounds { par with pcReset := 72 } (72 : Word).toInt = true ∧
      inBounds { par with pcReset := 72 } ((72 : Word) + 4).toInt = true) := by decide

theorem wit_resetInvariant :
    par.Wf ∧ (image [0x04310002]).Within par := by decide

/-! `new`: arguments at the boundary of what it accepts, and one step past it -/

/-- `new` makes a processor. -/
def accepted (par : Config.Params) (handle : Option Memory) : Bool :=
  match newProcessor par handle with
  | .ok _ => true
  | .error _ => false

/-- The arguments of `State.reset`, the largest upper bound with its last byte given, the empty region, full contents. -/
theorem test_new_accepts :
    newProcessor Config.defaultParams (some []) = .ok State.reset ∧
    accepted { par with ub := 2 ^ 31 } (some [(2 ^ 31 - 1, 7)]) = true ∧ accepted { par with ub := 16 } (some []) = true ∧
    accepted par (some (image [])) = true := by decide

/-- Null from `allocate`, one byte above 2^31, bounds the wrong way round, a map with a mnemonic twice, a byte just past
the region, and a byte given twice. -/
theorem test_new_refuses :
    newProcessor par none = .error .noRegion ∧
    newProcessor { par with ub := 2 ^ 31 + 1 } (some []) = .error .unsupportedArguments ∧
    newProcessor { par with ub := 15 } (some []) = .error .unsupportedArguments ∧
    newProcessor { par with opcodeMap := .load :: par.opcodeMap } (some []) = .error .unsupportedArguments ∧
    newProcessor par (some [(80, 1)]) = .error .unsupportedArguments ∧
    newProcessor par (some [(16, 1), (16, 1)]) = .error .unsupportedArguments := by decide

theorem wit_newProcessor :
    (2 ^ 31 < { par with ub := 2 ^ 31 + 1 }.ub ∧ { par with ub := 15 }.ub < par.lb ∧
      ¬Config.OpcodeMapWf (.load :: par.opcodeMap) ∧ ¬Memory.Within [(80, 1)] par) ∧
    (par.Wf ∧ (image []).Within par) ∧ accepted par (some (image [])) = true := by decide

/-- A running core over a region of one byte too many, and over bounds the wrong way round. -/
theorem wit_unsupported :
    (State.new { par with ub := 2 ^ 31 + 1 } []).status = .running ∧
    2 ^ 31 < (State.new { par with ub := 2 ^ 31 + 1 } []).par.ub ∧
    (State.new { par with ub := 15 } []).par.ub < (State.new { par with ub := 15 } []).par.lb ∧
    ¬Config.OpcodeMapWf (State.new { par with opcodeMap := [] } []).par.opcodeMap := by decide

/-- 4 cycles on, running; and halted, PC having started at the end of the region. -/
theorem wit_neverRefused :
    newProcessor par (some (image [])) = .ok (State.new par (image [])) ∧
    ((State.new par (image [])).after 4).map State.status = some .running ∧
    newProcessor { par with pcReset := 80 } (some []) = .ok (State.new { par with pcReset := 80 } []) ∧
    (((State.new { par with pcReset := 80 } []).after 1).map State.exitCode) = some (some (-102)) := by decide

theorem wit_stepKeeps :
    (Inv (atDecode 0x04310002) ∧ nextHas (step (atDecode 0x04310002)) (fun _ => true) = true) ∧
    (Inv flushing ∧ nextHas (step flushing) (fun _ => true) = true) :=
  ⟨⟨inv_add, by decide⟩, ⟨inv_flushing, by decide⟩⟩

theorem wit_after : ((atDecode 0x04310002).after 4).isSome = true := by decide

theorem wit_ignores :
    nextHas (step (busy 0x04310002)) (fun _ => true) = true ∧
    nextHas (exec (.cmp 1 0 (.imm 3)) (busy 0x11100003)) (fun _ => true) = true := by decide

theorem wit_placed :
    decodeWord par.opcodeMap (BitVec.ofNat 32 (0x16000000 % 2 ^ 32)) = .ok (.bne 0 0 (.reg 0)) ∧
    (atDecode 0).status = .running ∧ (atDecode 0).par.Wf ∧ inBounds (atDecode 0).par ((atDecode 0).pc + 4).toInt = true := by decide

end Sys2Proof.Tests
end

section
/-! PROOFS. The big-endian word (20_memory.md R52, R53): bytes and word agree, a word written is read back. -/

namespace Sys2Proof.Machine

/-- A byte put below a number shifts it up by eight bits. -/
theorem toNat_append_byte {w : Nat} (x : BitVec w) (b : Byte) : (x ++ b).toNat = x.toNat * 2 ^ 8 + b.toNat := by
  rw [BitVec.toNat_append, ← Nat.shiftLeft_add_eq_or_of_lt b.isLt, Nat.shiftLeft_eq]

/-- 20_memory.md R52: a word as the big-endian number of its bytes. -/
theorem toNat_wordOfBytes (b0 b1 b2 b3 : Byte) :
    (wordOfBytes b0 b1 b2 b3).toNat = b0.toNat * 2 ^ 24 + b1.toNat * 2 ^ 16 + b2.toNat * 2 ^ 8 + b3.toNat := by
  rw [wordOfBytes, toNat_append_byte, toNat_append_byte, toNat_append_byte]
  omega

/-- 20_memory.md R53: a byte of a word as a base-256 digit. -/
theorem toNat_byteOfWord (w : Word) (k : Nat) : (byteOfWord w k).toNat = w.toNat / 2 ^ (24 - 8 * k) % 2 ^ 8 := by
  rw [byteOfWord, BitVec.extractLsb'_toNat, Nat.shiftRight_eq_div_pow]

/-- A word's bytes, taken in memory order and put together again, give the word. -/
@[simp] theorem wordOfBytes_byteOfWord (w : Word) :
    wordOfBytes (byteOfWord w 0) (byteOfWord w 1) (byteOfWord w 2) (byteOfWord w 3) = w := by
  apply BitVec.eq_of_toNat_eq
  rw [toNat_wordOfBytes, toNat_byteOfWord, toNat_byteOfWord, toNat_byteOfWord, toNat_byteOfWord]
  omega

/-- Each of the four addresses of a word write holds its byte of the word. -/
theorem Memory.byteAt_writeWord_add (m : Memory) (a : Nat) (u : Word) {k : Nat} (hk : k < 4) :
    (m.writeWord a u).byteAt (a + k) = byteOfWord u k := by
  rw [Memory.byteAt_writeWord, if_pos (by omega), Nat.add_sub_cancel_left]

/-- The frame of a word write. -/
theorem Memory.byteAt_writeWord_outside (m : Memory) {a y : Nat} (u : Word) (hy : y < a ∨ a + 4 ≤ y) :
    (m.writeWord a u).byteAt y = m.byteAt y := by
  rw [Memory.byteAt_writeWord, if_neg (by omega)]

/-- A word read where it was just written is that word. -/
@[simp] theorem Memory.readWord_writeWord (m : Memory) (a : Nat) (u : Word) : (m.writeWord a u).readWord a = u := by
  have byte0 : (m.writeWord a u).byteAt a = byteOfWord u 0 := m.byteAt_writeWord_add a u (k := 0) (by decide)
  have byte1 := m.byteAt_writeWord_add a u (k := 1) (by decide)
  have byte2 := m.byteAt_writeWord_add a u (k := 2) (by decide)
  have byte3 := m.byteAt_writeWord_add a u (k := 3) (by decide)
  rw [Memory.readWord, byte0, byte1, byte2, byte3, wordOfBytes_byteOfWord]

/-- Settles O32: the read is the big-endian number by `toNat_wordOfBytes`; what a write leaves at each address is
`Memory.byteAt_writeWord`, inside and outside the access. -/
theorem memoryReadsWhatWasWritten : Obligations.MemoryReadsWhatWasWritten := by
  intro m a v u n
  have byteAt_n : ∀ k, k < 4 → n.byteAt (a + k) = byteOfWord u k := fun k hk => m.byteAt_writeWord_add a u hk
  exact ⟨m.readWord_writeWord a u, byteAt_n 0 (by decide), byteAt_n 1 (by decide), byteAt_n 2 (by decide),
    byteAt_n 3 (by decide), fun y hy => m.byteAt_writeWord_outside u hy, toNat_wordOfBytes _ _ _ _⟩

end Sys2Proof.Machine
end

section
/-! PROOFS. The instruction word (30_encoding.md R71, R79): its fields are read back, and it is the number the formula
gives. -/

namespace Sys2Proof

/-- A field put below a number shifts it up by the field's width: `Machine.toNat_append_byte` for every width. -/
theorem toNat_append_field {v w : Nat} (x : BitVec v) (y : BitVec w) :
    (x ++ y).toNat = x.toNat * 2 ^ w + y.toNat := by
  rw [BitVec.toNat_append, ← Nat.shiftLeft_add_eq_or_of_lt y.isLt, Nat.shiftLeft_eq]

section Word
variable (op : BitVec 7) (imm : BitVec 1) (rd rs1 : BitVec 4) (src2 : BitVec 16)

/-! ## Each field of 30_encoding.md R71, read from the word: the fields below it are skipped one by one -/

@[simp] theorem fieldSrc2_encodeFields : fieldSrc2 (encodeFields op imm rd rs1 src2) = src2 :=
  BitVec.extractLsb'_append_eq_right

@[simp] theorem fieldRs1_encodeFields : fieldRs1 (encodeFields op imm rd rs1 src2) = rs1 :=
  calc fieldRs1 (encodeFields op imm rd rs1 src2)
    _ = (op ++ imm ++ rd ++ rs1).extractLsb' 0 4 := BitVec.extractLsb'_append_eq_of_le (by decide)
    _ = rs1 := BitVec.extractLsb'_append_eq_right

@[simp] theorem fieldRd_encodeFields : fieldRd (encodeFields op imm rd rs1 src2) = rd :=
  calc fieldRd (encodeFields op imm rd rs1 src2)
    _ = (op ++ imm ++ rd ++ rs1).extractLsb' 4 4 := BitVec.extractLsb'_append_eq_of_le (by decide)
    _ = (op ++ imm ++ rd).extractLsb' 0 4 := BitVec.extractLsb'_append_eq_of_le (by decide)
    _ = rd := BitVec.extractLsb'_append_eq_right

@[simp] theorem fieldImm_encodeFields : fieldImm (encodeFields op imm rd rs1 src2) = imm :=
  calc fieldImm (encodeFields op imm rd rs1 src2)
    _ = (op ++ imm ++ rd ++ rs1).extractLsb' 8 1 := BitVec.extractLsb'_append_eq_of_le (by decide)
    _ = (op ++ imm ++ rd).extractLsb' 4 1 := BitVec.extractLsb'_append_eq_of_le (by decide)
    _ = (op ++ imm).extractLsb' 0 1 := BitVec.extractLsb'_append_eq_of_le (by decide)
    _ = imm := BitVec.extractLsb'_append_eq_right

@[simp] theorem fieldOp_encodeFields : fieldOp (encodeFields op imm rd rs1 src2) = op :=
  calc fieldOp (encodeFields op imm rd rs1 src2)
    _ = (op ++ imm ++ rd ++ rs1).extractLsb' 9 7 := BitVec.extractLsb'_append_eq_of_le (by decide)
    _ = (op ++ imm ++ rd).extractLsb' 5 7 := BitVec.extractLsb'_append_eq_of_le (by decide)
    _ = (op ++ imm).extractLsb' 1 7 := BitVec.extractLsb'_append_eq_of_le (by decide)
    _ = op := BitVec.extractLsb'_append_eq_left

/-! ## The word as a number -/

/-- The formula of 30_encoding.md R79, source 2 as its sixteen bits. -/
theorem toNat_encodeFields :
    (encodeFields op imm rd rs1 src2).toNat =
      op.toNat * 2 ^ 25 + imm.toNat * 2 ^ 24 + rd.toNat * 2 ^ 20 + rs1.toNat * 2 ^ 16 + src2.toNat := by
  rw [encodeFields, toNat_append_field, toNat_append_field, toNat_append_field, toNat_append_field]
  omega

end Word

/-- The bits of a literal are its value modulo `2 ^ 16`. -/
theorem toNat_ofInt_literal (k : Int) : ((BitVec.ofInt 16 k).toNat : Int) = k % 2 ^ 16 := by
  rw [BitVec.toNat_ofInt]
  exact Int.toNat_of_nonneg (Int.emod_nonneg k (by decide))

/-- The bytes of a word in memory order are its base-256 digits; the first needs no reduction. -/
theorem map_toNat_bytesOfWord (w : Word) :
    (bytesOfWord w).map BitVec.toNat =
      [w.toNat / 2 ^ 24, w.toNat / 2 ^ 16 % 256, w.toNat / 2 ^ 8 % 256, w.toNat % 256] := by
  have top : w.toNat / 2 ^ 24 < 256 := by omega
  simpa [bytesOfWord, Machine.toNat_byteOfWord] using top

/-- Settles O3: the number is `toNat_encodeFields`, its bytes are `map_toNat_bytesOfWord`, and each field is read back;
the bounds on `src2` are what lets its sixteen bits be read as the same signed value. -/
theorem encodingFormula : Obligations.EncodingFormula := by
  intro op imm rd rs1 src2 hlo hhi w
  have number : (w.toNat : Int) =
      op.toNat * 2 ^ 25 + imm.toNat * 2 ^ 24 + rd.toNat * 2 ^ 20 + rs1.toNat * 2 ^ 16 + src2 % 2 ^ 16 := by
    rw [toNat_encodeFields, ← toNat_ofInt_literal]
    push_cast
    rfl
  have literal : (fieldSrc2 w).toInt = src2 := by
    rw [fieldSrc2_encodeFields]
    exact BitVec.toInt_ofInt_eq_self (by decide) hlo (Int.lt_add_one_of_le hhi)
  exact ⟨number, map_toNat_bytesOfWord w, fieldOp_encodeFields .., fieldImm_encodeFields .., fieldRd_encodeFields ..,
    fieldRs1_encodeFields .., literal⟩

end Sys2Proof
end

section
/-! PROOFS. The control-signal unit and the branch conditions (40_pipeline.md R101): what the table says of each signal
over all mnemonics, and the conditions on FLAG read as a signed integer. -/

namespace Sys2Proof.Machine

/-! ## The signals as predicates of the mnemonic -/

theorem signalsFor_memRead (m : Mnemonic) : (signalsFor m).memRead = true ↔ m = .load := by
  cases m <;> decide

theorem signalsFor_memWrite (m : Mnemonic) : (signalsFor m).memWrite = true ↔ m = .store := by
  cases m <;> decide

theorem signalsFor_branch (m : Mnemonic) : (signalsFor m).branch = true ↔ m = .brn ∨ m = .beq ∨ m = .bne := by
  cases m <;> decide

/-- The two memory signals belong to two mnemonics. -/
theorem signalsFor_not_memRead_and_memWrite (m : Mnemonic) :
    ¬((signalsFor m).memRead = true ∧ (signalsFor m).memWrite = true) := by
  rintro ⟨hread, hwrite⟩
  have isLoad : m = .load := (signalsFor_memRead m).1 hread
  have isStore : m = .store := (signalsFor_memWrite m).1 hwrite
  cases isLoad.symm.trans isStore

/-- A branch's target is a sum. -/
theorem signalsFor_aluOp_of_branch {m : Mnemonic} (h : (signalsFor m).branch = true) : (signalsFor m).aluOp = .add := by
  obtain rfl | rfl | rfl := (signalsFor_branch m).1 h
  · rfl
  · rfl
  · rfl

/-! ## The branch conditions: a FLAG is zero exactly where its signed value is -/

@[simp] theorem taken_brn (f : DWord) : taken .brn f = true := rfl

theorem toInt_eq_zero_iff (f : DWord) : f.toInt = 0 ↔ f = 0 := by
  rw [← BitVec.toInt_inj, BitVec.ofNat_eq_ofNat, BitVec.toInt_zero]

theorem taken_beq_iff (f : DWord) : taken .beq f = true ↔ f.toInt = 0 :=
  decide_eq_true_iff.trans (toInt_eq_zero_iff f).symm

theorem taken_bne_iff (f : DWord) : taken .bne f = true ↔ f.toInt ≠ 0 :=
  decide_eq_true_iff.trans (toInt_eq_zero_iff f).symm.not

/-- Settles O8: each row of the table is the equation of `signalsFor` for its mnemonic; no mnemonic reads and writes
memory since `memRead` is LOAD's and `memWrite` is STORE's. -/
theorem controlSignalsAreTheTable : Obligations.ControlSignalsAreTheTable :=
  ⟨rfl, rfl, rfl, rfl, rfl, rfl, rfl, rfl, rfl, rfl, rfl, rfl, signalsFor_not_memRead_and_memWrite,
    fun f => ⟨taken_brn f, taken_beq_iff f, taken_bne_iff f⟩⟩

end Sys2Proof.Machine
end

section
/-! PROOFS. The ALU (40_pipeline.md R106): its operations on signed 64-bit values and bit by bit. -/

namespace Sys2Proof.Machine

section Alu
variable (a b : DWord)

/-- The sum wraps: it is `trunc_64` of the sum of the signed values. -/
theorem alu_add_eq_ofInt : alu .add a b = BitVec.ofInt 64 (a.toInt + b.toInt) :=
  calc alu .add a b
    _ = BitVec.ofInt 64 a.toInt + BitVec.ofInt 64 b.toInt := by rw [BitVec.ofInt_toInt, BitVec.ofInt_toInt, alu]
    _ = BitVec.ofInt 64 (a.toInt + b.toInt) := (BitVec.ofInt_add _ _).symm

/-- The difference wraps: it is `trunc_64` of the difference of the signed values. -/
theorem alu_sub_eq_ofInt : alu .sub a b = BitVec.ofInt 64 (a.toInt - b.toInt) :=
  calc alu .sub a b
    _ = a + -b := BitVec.sub_eq_add_neg a b
    _ = BitVec.ofInt 64 a.toInt + BitVec.ofInt 64 (-b.toInt) := by
      rw [BitVec.ofInt_neg, BitVec.ofInt_toInt, BitVec.ofInt_toInt]
    _ = BitVec.ofInt 64 (a.toInt - b.toInt) := (BitVec.ofInt_add _ _).symm

theorem getLsbD_alu_and (k : Nat) : (alu .and a b).getLsbD k = (a.getLsbD k && b.getLsbD k) :=
  BitVec.getLsbD_and

theorem getLsbD_alu_or (k : Nat) : (alu .or a b).getLsbD k = (a.getLsbD k || b.getLsbD k) :=
  BitVec.getLsbD_or

theorem getLsbD_alu_xor (k : Nat) : (alu .xor a b).getLsbD k = (a.getLsbD k ^^ b.getLsbD k) :=
  BitVec.getLsbD_xor

@[simp] theorem alu_pass : alu .pass a b = b := rfl

end Alu

/-- Settles O34: the six operations by their lemmas above; Execute keeps status and FLAG by its frame lemmas
`execute_status` and `execute_flag`. -/
theorem aluTable : Obligations.AluTable :=
  ⟨fun a b => ⟨alu_add_eq_ofInt a b, alu_sub_eq_ofInt a b, getLsbD_alu_and a b, getLsbD_alu_or a b,
      getLsbD_alu_xor a b, alu_pass a b⟩,
    fun s p => ⟨execute_status s p, execute_flag s p⟩, rfl, rfl, rfl, fun _ => signalsFor_aluOp_of_branch⟩

end Sys2Proof.Machine
end

section
/-! PROOFS. Reset (70_reset_and_hazards.md R220): the elements of the state that `State.new` makes. -/

namespace Sys2Proof.Machine

theorem State.new_regs_getElem (par : Config.Params) (image : Memory) (k : Nat) (h : k < 8) :
    (State.new par image).regs[k] = 0 := by
  simp only [State.new_regs, Vector.getElem_replicate]

/-- The default of `P_PC_RESET` in R220 is `P_LB`: PC, a signed 32-bit word, is compared with the natural number bound. -/
theorem State.reset_pc_toInt : State.reset.pc.toInt = State.reset.par.lb :=
  calc State.reset.pc.toInt
    _ = Config.defaultParams.pcReset.toInt := congrArg BitVec.toInt (State.new_pc Config.defaultParams [])
    _ = Config.defaultParams.lb := by decide
    _ = State.reset.par.lb := congrArg (fun par => (par.lb : Int)) (State.new_par Config.defaultParams []).symm

/-- Settles O43: over any region and contents each element of R220 by its `State.new` law;
the model's own reset state by `State.reset_pc_toInt`. -/
theorem resetState : Obligations.ResetState := by
  refine ⟨fun par image => ?_, State.reset_pc_toInt⟩
  exact ⟨State.new_regs_getElem par image, State.new_flag par image, State.new_pc par image, State.new_lf par image,
    State.new_ld par image, State.new_le par image, State.new_lm par image, State.new_lw par image,
    State.new_stall par image, State.new_bubbleNext par image, State.new_flush par image,
    State.new_status par image, State.new_mem par image, State.new_par par image⟩

end Sys2Proof.Machine
end

section
/-! PROOFS. The codec (30_encoding.md): what it takes for a word to decode, and that decoder and encoder are inverse to
each other under every opcode map. -/

namespace Sys2Proof

/-! ## Instructions and their fields -/

@[simp] theorem mkInstr_mnemonic (m : Mnemonic) (rd rs1 : BitVec 4) (src2 : Src2) :
    (mkInstr m rd rs1 src2).mnemonic = m := by cases m <;> rfl
@[simp] theorem mkInstr_rd (m : Mnemonic) (rd rs1 : BitVec 4) (src2 : Src2) : (mkInstr m rd rs1 src2).rd = rd := by
  cases m <;> rfl
@[simp] theorem mkInstr_rs1 (m : Mnemonic) (rd rs1 : BitVec 4) (src2 : Src2) : (mkInstr m rd rs1 src2).rs1 = rs1 := by
  cases m <;> rfl
@[simp] theorem mkInstr_src2 (m : Mnemonic) (rd rs1 : BitVec 4) (src2 : Src2) :
    (mkInstr m rd rs1 src2).src2 = src2 := by cases m <;> rfl

/-- The law of each instruction, for every instruction. -/
theorem rebuild (i : Instr) : Laws.Rebuild.Statement i := by
  cases i with
  | load => exact Laws.Rebuild.load ..
  | store => exact Laws.Rebuild.store ..
  | add => exact Laws.Rebuild.add ..
  | sub => exact Laws.Rebuild.sub ..
  | and => exact Laws.Rebuild.and ..
  | or => exact Laws.Rebuild.or ..
  | xor => exact Laws.Rebuild.xor ..
  | mov => exact Laws.Rebuild.mov ..
  | cmp => exact Laws.Rebuild.cmp ..
  | brn => exact Laws.Rebuild.brn ..
  | beq => exact Laws.Rebuild.beq ..
  | bne => exact Laws.Rebuild.bne ..

/-- Decode's range checks pass exactly for the well-formed instructions. -/
theorem operandError_eq_none_iff (i : Instr) : operandError i.rd i.rs1 i.src2 = none ↔ i.wf = true := by
  rw [← (rebuild i).2, Option.isNone_iff_eq_none]

/-- Source 2 is read back from its flag and its sixteen bits. -/
@[simp] theorem decodeSrc2_bits (src2 : Src2) : decodeSrc2 (immBit src2) (src2Bits src2) = src2 := by
  cases src2 <;> rfl

@[simp] theorem immBit_decodeSrc2 (f : BitVec 1) (v : BitVec 16) : immBit (decodeSrc2 f v) = f := by
  rcases BitVec.eq_zero_or_eq_one f with rfl | rfl <;> rfl

@[simp] theorem src2Bits_decodeSrc2 (f : BitVec 1) (v : BitVec 16) : src2Bits (decodeSrc2 f v) = v := by
  rcases BitVec.eq_zero_or_eq_one f with rfl | rfl <;> rfl

/-! ## Opcodes and mnemonics -/

theorem opcodeMnemonic_eq_some_iff {map : List Mnemonic} {op : BitVec 7} {m : Mnemonic} :
    opcodeMnemonic map op = some m ↔ op.toNat < 12 ∧ map[op.toNat]? = some m := by
  simp [opcodeMnemonic, Config.numOpcodes]

/-- 30_encoding.md R76 case 1: from 12 on no opcode has a mnemonic, under any map. -/
theorem opcodeMnemonic_of_le {map : List Mnemonic} {op : BitVec 7} (h : 12 ≤ op.toNat) :
    opcodeMnemonic map op = none :=
  if_neg (Nat.not_lt.2 h)

/-- A bijection gives every opcode below 12 a mnemonic. -/
theorem opcodeMnemonic_of_lt {map : List Mnemonic} (hmap : Config.OpcodeMapWf map) {op : BitVec 7}
    (h : op.toNat < 12) : ∃ m, opcodeMnemonic map op = some m :=
  ⟨_, opcodeMnemonic_eq_some_iff.2 ⟨h, List.getElem?_eq_getElem (hmap.1.symm ▸ h)⟩⟩

theorem mem_mnemonics (m : Mnemonic) : m ∈ Config.mnemonics := by cases m <;> decide

/-- The opcode of a mnemonic stands for that mnemonic. -/
theorem opcodeMnemonic_opcodeOf {map : List Mnemonic} (hmap : Config.OpcodeMapWf map) (m : Mnemonic) :
    opcodeMnemonic map (opcodeOf map m) = some m := by
  obtain ⟨hlen, -, hall⟩ := hmap
  have hmem : m ∈ map := hall m (mem_mnemonics m)
  have hidx : map.idxOf m < 12 := (List.idxOf_lt_length_iff.2 hmem).trans_eq hlen
  have htoNat : (opcodeOf map m).toNat = map.idxOf m := by
    rw [opcodeOf, BitVec.toNat_ofNat]; omega
  rw [opcodeMnemonic_eq_some_iff, htoNat]
  exact ⟨hidx, List.getElem?_idxOf hmem⟩

/-- No two opcodes stand for one mnemonic: a bijection has no entry twice. -/
theorem opcodeOf_eq {map : List Mnemonic} (hmap : Config.OpcodeMapWf map) {op : BitVec 7} {m : Mnemonic}
    (h : opcodeMnemonic map op = some m) : opcodeOf map m = op := by
  obtain ⟨-, hnodup, -⟩ := hmap
  obtain ⟨-, hget⟩ := opcodeMnemonic_eq_some_iff.1 h
  obtain ⟨hlt, rfl⟩ := List.getElem?_eq_some_iff.1 hget
  rw [opcodeOf, hnodup.idxOf_getElem, BitVec.ofNat_toNat, BitVec.setWidth_eq]

/-! ## Decoding -/

/-- The one way a word decodes: its opcode has the instruction's mnemonic, the instruction has the word's fields, and
the range checks pass. -/
theorem decodeWord_eq_ok_iff {map : List Mnemonic} {w : Word} {i : Instr} :
    decodeWord map w = .ok i ↔
      opcodeMnemonic map (fieldOp w) = some i.mnemonic ∧ i.rd = fieldRd w ∧ i.rs1 = fieldRs1 w ∧
        i.src2 = decodeSrc2 (fieldImm w) (fieldSrc2 w) ∧ i.wf = true := by
  unfold decodeWord
  constructor
  · intro h
    split at h
    · cases h
    rename_i m hm
    split at h
    · cases h
    rename_i hnone
    obtain rfl := Except.ok.inj h
    exact ⟨by simpa using hm, by simp, by simp, by simp, (operandError_eq_none_iff _).1 (by simpa using hnone)⟩
  · rintro ⟨hm, hrd, hrs1, hsrc2, hwf⟩
    rw [hm, ← hrd, ← hrs1, ← hsrc2]
    dsimp only
    rw [(operandError_eq_none_iff i).2 hwf, (rebuild i).1]

/-- A decoded instruction is well formed. -/
theorem wf_of_decodeWord {map : List Mnemonic} {w : Word} {i : Instr} (h : decodeWord map w = .ok i) : i.wf = true := by
  obtain ⟨-, -, -, -, hwf⟩ := decodeWord_eq_ok_iff.1 h
  exact hwf

theorem decodeWord_encode {map : List Mnemonic} {i : Instr} (hmap : Config.OpcodeMapWf map) (hwf : i.wf = true) :
    decodeWord map (encode map i) = .ok i := by
  rw [decodeWord_eq_ok_iff, encode, fieldOp_encodeFields, fieldImm_encodeFields, fieldRd_encodeFields,
    fieldRs1_encodeFields, fieldSrc2_encodeFields, decodeSrc2_bits]
  exact ⟨opcodeMnemonic_opcodeOf hmap i.mnemonic, rfl, rfl, rfl, hwf⟩

/-- Settles O1: `decodeWord_encode`; the bytes of a word are put together to it again. -/
theorem decodeOfEncodeIsTheInstruction : Obligations.DecodeOfEncodeIsTheInstruction := by
  intro map i hmap hwf
  refine ⟨decodeWord_encode hmap hwf, fun rest => ?_⟩
  simp [encodeBytes, bytesOfWord, decodeBytes, Machine.wordOfBytes_byteOfWord, decodeWord_encode hmap hwf]

/-- A word is made of its fields: no bit is outside them. -/
theorem encodeFields_fields (w : Word) :
    encodeFields (fieldOp w) (fieldImm w) (fieldRd w) (fieldRs1 w) (fieldSrc2 w) = w := by
  apply BitVec.eq_of_toNat_eq
  rw [toNat_encodeFields]
  simp only [fieldOp, fieldImm, fieldRd, fieldRs1, fieldSrc2, BitVec.extractLsb'_toNat, Nat.shiftRight_eq_div_pow]
  omega

/-- Settles O2: each field of the encoding is the word's, the opcode since the map has no entry twice. -/
theorem decodedWordIsItsEncoding : Obligations.DecodedWordIsItsEncoding := by
  intro map w i hmap h
  obtain ⟨hm, hrd, hrs1, hsrc2, hwf⟩ := decodeWord_eq_ok_iff.1 h
  refine ⟨hwf, ?_⟩
  rw [encode, opcodeOf_eq hmap hm, hrd, hrs1, hsrc2, immBit_decodeSrc2, src2Bits_decodeSrc2, encodeFields_fields]

/-! ## The checks in their order -/

theorem decodeWord_of_opcode {map : List Mnemonic} {w : Word} (h : 12 ≤ (fieldOp w).toNat) :
    decodeWord map w = .error .invalidOpcode := by
  simp [decodeWord, opcodeMnemonic_of_le h]

/-- With a valid opcode the error is the one of the range checks. -/
theorem decodeWord_of_operandError {map : List Mnemonic} (hmap : Config.OpcodeMapWf map) {w : Word}
    (hop : (fieldOp w).toNat < 12) {err : DecodeError}
    (h : operandError (fieldRd w) (fieldRs1 w) (decodeSrc2 (fieldImm w) (fieldSrc2 w)) = some err) :
    decodeWord map w = .error err := by
  obtain ⟨m, hm⟩ := opcodeMnemonic_of_lt hmap hop
  simp [decodeWord, hm, h]

section Checks
variable {rd rs1 : BitVec 4}

theorem operandError_of_rd (src2 : Src2) (h : 10 ≤ rd.toNat) : operandError rd rs1 src2 = some .invalidRd :=
  if_pos h

theorem operandError_of_rs1 (src2 : Src2) (hrd : rd.toNat < 10) (h : 10 ≤ rs1.toNat) :
    operandError rd rs1 src2 = some .invalidRs1 := by
  unfold operandError
  rw [if_neg (Nat.not_le.2 hrd), if_pos h]

theorem operandError_of_src2 {k : BitVec 16} (hrd : rd.toNat < 10) (hrs1 : rs1.toNat < 10)
    (h : k.toInt < 0 ∨ 9 < k.toInt) : operandError rd rs1 (.reg k) = some .invalidSrc2 := by
  have hk : src2Index k = none := if_neg (by omega)
  simp [operandError, Config.numRegs, Nat.not_le.2 hrd, Nat.not_le.2 hrs1, hk]

end Checks

/-- Settles O4: the opcode's check, then the three range checks, then the word's own fields as an instruction. -/
theorem decodeChecksInOrder : Obligations.DecodeChecksInOrder := by
  intro map w hmap
  refine ⟨decodeWord_of_opcode, fun hop hrd => ?_, fun hop hrd hrs1 => ?_, fun hop hrd hrs1 himm hsrc2 => ?_,
    fun hop hrd hrs1 hsrc2 => ?_⟩
  · exact decodeWord_of_operandError hmap hop (operandError_of_rd _ hrd)
  · exact decodeWord_of_operandError hmap hop (operandError_of_rs1 _ hrd hrs1)
  · refine decodeWord_of_operandError hmap hop ?_
    rw [himm]
    exact operandError_of_src2 hrd hrs1 hsrc2
  · obtain ⟨m, hm⟩ := opcodeMnemonic_of_lt hmap hop
    obtain ⟨-, hget⟩ := opcodeMnemonic_eq_some_iff.1 hm
    have hwf : (mkInstr m (fieldRd w) (fieldRs1 w) (decodeSrc2 (fieldImm w) (fieldSrc2 w))).wf = true := by
      have hsrc2wf : (decodeSrc2 (fieldImm w) (fieldSrc2 w)).wf = true := by
        rcases hsrc2 with himm | hrange
        · rw [himm]; rfl
        · rcases BitVec.eq_zero_or_eq_one (fieldImm w) with himm | himm
          · rw [himm]; simpa [decodeSrc2, Src2.wf] using hrange
          · rw [himm]; rfl
      simp [Instr.wf, regFieldWf, Config.numRegs, hrd, hrs1, hsrc2wf]
    exact ⟨m, mkInstr m (fieldRd w) (fieldRs1 w) (decodeSrc2 (fieldImm w) (fieldSrc2 w)), hget,
      decodeWord_eq_ok_iff.2 ⟨by simpa using hm, by simp, by simp, by simp, hwf⟩, by simp, by simp, by simp,
      by simp [decodeSrc2]⟩

/-- Settles O5: the decoder is run on each word. -/
theorem sampleWordsDecode : Obligations.SampleWordsDecode := by
  refine ⟨?_, ?_, ?_, ?_, ?_, ?_, ?_, ?_, ?_, ?_, ?_, ?_, ?_⟩ <;> decide

end Sys2Proof
end

section
/-! PROOFS. The uniform register accessor (10_state.md R27), the operand reads of Decode (40_pipeline.md R105) and the
host's accessor (R137): one equation per class of indices, and one description of a write. -/

namespace Sys2Proof.Machine

/-! ## Reading -/

section Read
variable (s : State)

theorem State.readReg_general {k : Nat} (h : k < 8) : s.readReg k = some (sext32 s.regs[k]) := dif_pos h
@[simp] theorem State.readReg_pc : s.readReg 8 = some (sext32 s.pc) := rfl
@[simp] theorem State.readReg_flag : s.readReg 9 = some s.flag := rfl

theorem State.readReg_eq_none {k : Nat} (h : 9 < k) : s.readReg k = none := by
  rw [← Option.not_isSome_iff_eq_none, State.readReg_isSome]
  simpa using h

theorem State.writeReg_eq_none {k : Nat} (v : DWord) (h : 9 < k) : s.writeReg k v = none := by
  rw [← Option.not_isSome_iff_eq_none, State.writeReg_isSome]
  simpa using h

end Read

/-- Only index 8 is read otherwise in Decode than by the accessor. -/
theorem readOperand_of_ne (s : State) {k : Nat} (h : k ≠ 8) (fpc : Word) : readOperand s k fpc = s.readReg k := if_neg h

@[simp] theorem readOperand_pc (s : State) (fpc : Word) : readOperand s 8 fpc = some (sext32 fpc) := rfl

theorem src2Index_of_range {v : BitVec 16} (h0 : 0 ≤ v.toInt) (h9 : v.toInt ≤ 9) : src2Index v = some v.toNat := by
  have htoNat : v.toInt.toNat = v.toNat := by
    have := BitVec.toInt_eq_toNat_cond v
    split at this <;> omega
  rw [src2Index, if_pos ⟨h0, h9⟩, htoNat]

/-- Settles O9: the reads by the class of the index; a literal and an index 0..9 by the reading of source 2. -/
theorem operandReads : Obligations.OperandReads := by
  intro s fpc
  refine ⟨fun k hk => ?_, readOperand_pc s fpc, s.readReg_flag, fun k hk => ?_, fun v => rfl, fun v h0 h9 => ?_⟩
  · rw [readOperand_of_ne s (by omega), s.readReg_general hk, sext32]
  · rw [readOperand_of_ne s (by omega), s.readReg_eq_none hk]
  · simp [readSource2, src2Index_of_range h0 h9]

/-! ## Writing -/

/-- `t` is `s` with `v` written to the register index `i`, at the width of that register, and nothing else changed. -/
structure State.Written (s t : State) (i : Nat) (v : DWord) : Prop where
  regs : ∀ k (h : k < 8), t.regs[k] = if k = i then trunc32 v else s.regs[k]
  pc : t.pc = if i = 8 then trunc32 v else s.pc
  flag : t.flag = if i = 9 then v else s.flag
  rest : t = { s with regs := t.regs, pc := t.pc, flag := t.flag }

theorem State.written_of_writeReg {s t : State} {i : Nat} {v : DWord} (h : s.writeReg i v = some t) :
    s.Written t i v := by
  rcases State.writeReg_cases h with ⟨hi, rfl⟩ | ⟨rfl, rfl⟩ | ⟨rfl, rfl⟩
  · refine ⟨fun k hk => ?_, (if_neg (by omega)).symm, (if_neg (by omega)).symm, rfl⟩
    simp only [Vector.getElem_set, eq_comm (a := i)]
  · exact ⟨fun k hk => (if_neg (by omega)).symm, rfl, rfl, rfl⟩
  · exact ⟨fun k hk => (if_neg (by omega)).symm, rfl, rfl, rfl⟩

/-- The value a register holds after a write of `v`: FLAG all 64 bits, the others the low 32, read back
sign-extended. -/
def narrowed (i : Nat) (v : DWord) : DWord := if i = 9 then v else sext32 (trunc32 v)

theorem State.Written.readReg_same {s t : State} {i : Nat} {v : DWord} (h : s.Written t i v) (hi : i ≤ 9) :
    t.readReg i = some (narrowed i v) := by
  rcases (show i < 8 ∨ i = 8 ∨ i = 9 by omega) with h8 | rfl | rfl
  · rw [t.readReg_general h8, h.regs i h8, if_pos rfl, narrowed, if_neg (by omega)]
  · rw [t.readReg_pc, h.pc]; rfl
  · rw [t.readReg_flag, h.flag]; rfl

theorem State.Written.readReg_other {s t : State} {i j : Nat} {v : DWord} (h : s.Written t i v) (hj : j ≠ i) :
    t.readReg j = s.readReg j := by
  rcases (show j < 8 ∨ j = 8 ∨ j = 9 ∨ 9 < j by omega) with h8 | rfl | rfl | h9
  · rw [t.readReg_general h8, s.readReg_general h8, h.regs j h8, if_neg hj]
  · rw [t.readReg_pc, s.readReg_pc, h.pc, if_neg hj.symm]
  · rw [t.readReg_flag, s.readReg_flag, h.flag, if_neg hj.symm]
  · rw [t.readReg_eq_none h9, s.readReg_eq_none h9]

/-- A write to one of the ten registers succeeds. -/
theorem State.writeReg_le (s : State) {i : Nat} (h : i ≤ 9) (v : DWord) :
    ∃ t, s.writeReg i v = some t ∧ s.Written t i v := by
  obtain ⟨t, ht⟩ := Option.isSome_iff_exists.1 ((s.writeReg_isSome i v).trans (decide_eq_true h))
  exact ⟨t, ht, State.written_of_writeReg ht⟩

/-- Settles O33: the reads by class of index, a write by `State.Written`. -/
theorem registerAccessor : Obligations.RegisterAccessor := by
  intro s i v
  refine ⟨fun k hk => s.readReg_general hk, s.readReg_pc, s.readReg_flag,
    fun h9 => ⟨s.readReg_eq_none h9, s.writeReg_eq_none v h9⟩, fun h9 => ?_⟩
  obtain ⟨t, ht, hw⟩ := s.writeReg_le h9 v
  exact ⟨t, ht, hw.readReg_same h9, fun j hj => hw.readReg_other hj, hw.rest⟩

/-! ## The host's accessor -/

theorem hostReadReg_of_readReg {s : State} {i : Int} {v : DWord} (h : 0 ≤ i) (hv : s.readReg i.toNat = some v) :
    hostReadReg s i = .ok v.toInt := by
  simp [hostReadReg, h, hv]

/-- Equal reads of the core are equal reads of the host. -/
theorem hostReadReg_congr {s t : State} {i : Int} (h : t.readReg i.toNat = s.readReg i.toNat) :
    hostReadReg t i = hostReadReg s i := by
  simp only [hostReadReg, h]

theorem hostReadReg_refused (s : State) {i : Int} (h : i < 0 ∨ 9 < i) : hostReadReg s i = .error .invalidReg := by
  rcases h with h | h
  · exact if_neg (by omega)
  · simp [hostReadReg, s.readReg_eq_none (k := i.toNat) (by omega)]

theorem hostWriteReg_refused (s : State) {i : Int} (v : Int) (h : i < 0 ∨ 9 < i) :
    hostWriteReg s i v = .error .invalidReg := by
  rcases h with h | h
  · exact if_neg (by omega)
  · simp [hostWriteReg, s.writeReg_eq_none (k := i.toNat) _ (by omega)]

/-- An integer narrowed to 32 bits by way of 64 is narrowed to 32 bits. -/
theorem trunc32_ofInt (v : Int) : trunc32 (BitVec.ofInt 64 v) = BitVec.ofInt 32 v := by
  apply BitVec.eq_of_toNat_eq
  rw [trunc32, BitVec.toNat_setWidth, BitVec.toNat_ofInt, BitVec.toNat_ofInt]
  omega

theorem toInt_sext32 (w : Word) : (sext32 w).toInt = w.toInt := BitVec.toInt_signExtend_of_le (by decide)

/-- Settles O54: the host's accessor is the core's at a natural index, the value wrapped to 64 bits first. -/
theorem hostAccessor : Obligations.HostAccessor := by
  intro s i v
  refine ⟨fun h => ⟨hostReadReg_refused s h, hostWriteReg_refused s v h⟩, fun h0 h9 => ?_⟩
  have hidx : i.toNat ≤ 9 := by omega
  obtain ⟨t, ht, hw⟩ := s.writeReg_le hidx (BitVec.ofInt 64 v)
  refine ⟨t, by simp [hostWriteReg, h0, ht], ?_, fun j hj => ?_, hw.rest⟩
  · rw [hostReadReg_of_readReg h0 (hw.readReg_same hidx), narrowed]
    by_cases h : i = 9
    · rw [if_pos (by omega), if_pos h]
    · rw [if_neg (by omega), if_neg h, toInt_sext32, trunc32_ofInt]
  · by_cases hj0 : 0 ≤ j
    · exact hostReadReg_congr (hw.readReg_other (by omega))
    · rw [hostReadReg_refused t (.inl (by omega)), hostReadReg_refused s (.inl (by omega))]

end Sys2Proof.Machine
end

section
/-! PROOFS. The algebraic laws of the ALU (42_alu_ops.md R177) and the bounds check (20_memory.md R51). -/

namespace Sys2Proof.Machine

/-! ## The ALU -/

section Exact
variable {a b : DWord}

/-- A sum that is a signed 64-bit number is exact. -/
theorem toInt_alu_add (hlo : -2 ^ 63 ≤ a.toInt + b.toInt) (hhi : a.toInt + b.toInt < 2 ^ 63) :
    (alu .add a b).toInt = a.toInt + b.toInt := by
  rw [alu_add_eq_ofInt]
  exact BitVec.toInt_ofInt_eq_self (by decide) hlo hhi

/-- A difference that is a signed 64-bit number is exact. -/
theorem toInt_alu_sub (hlo : -2 ^ 63 ≤ a.toInt - b.toInt) (hhi : a.toInt - b.toInt < 2 ^ 63) :
    (alu .sub a b).toInt = a.toInt - b.toInt := by
  rw [alu_sub_eq_ofInt]
  exact BitVec.toInt_ofInt_eq_self (by decide) hlo hhi

/-- ADD minus SUB is `2b` where neither overflows. -/
theorem toInt_alu_add_sub (h1 : -2 ^ 63 ≤ a.toInt + b.toInt) (h2 : a.toInt + b.toInt < 2 ^ 63)
    (h3 : -2 ^ 63 ≤ a.toInt - b.toInt) (h4 : a.toInt - b.toInt < 2 ^ 63) :
    (alu .add a b).toInt - (alu .sub a b).toInt = 2 * b.toInt := by
  rw [toInt_alu_add h1 h2, toInt_alu_sub h3 h4]
  omega

end Exact

/-- The signed value of a 32-bit word. -/
theorem toInt_word_range (x : Word) : -2 ^ 31 ≤ x.toInt ∧ x.toInt < 2 ^ 31 := ⟨BitVec.le_toInt x, BitVec.toInt_lt⟩

/-- The bits in exactly one of two words are those in either less those in both. -/
theorem alu_xor_eq_sub (a b : DWord) : alu .xor a b = alu .sub (alu .or a b) (alu .and a b) := by
  have disjoint : (a ^^^ b) &&& (a &&& b) = 0 := by
    ext k hk; cases ha : a[k] <;> cases hb : b[k] <;> simp [ha, hb]
  have union : (a ^^^ b) ||| (a &&& b) = a ||| b := by
    ext k hk; cases ha : a[k] <;> cases hb : b[k] <;> simp [ha, hb]
  have sum : (a ^^^ b) + (a &&& b) = a ||| b := by
    rw [BitVec.add_eq_or_of_and_eq_zero _ _ disjoint, union]
  show a ^^^ b = (a ||| b) - (a &&& b)
  rw [← sum, BitVec.add_sub_cancel]

/-- Settles O35: the exact laws by `toInt_alu_add_sub`, whose bounds 32-bit operands meet; the others in the ring of
64-bit words and bit by bit. -/
theorem aluLaws : Obligations.AluLaws := by
  intro a b
  refine ⟨?_, toInt_alu_add_sub, fun x y => ?_, BitVec.add_comm a b, BitVec.sub_self a, BitVec.and_self, BitVec.or_self,
    alu_xor_eq_sub a b, BitVec.xor_self, alu_pass a b⟩
  · show a + b - (a - b) = b + b
    ring
  · have hx : (x.signExtend 64).toInt = x.toInt := toInt_sext32 x
    have hy : (y.signExtend 64).toInt = y.toInt := toInt_sext32 y
    obtain ⟨hx1, hx2⟩ := toInt_word_range x
    obtain ⟨hy1, hy2⟩ := toInt_word_range y
    rw [toInt_alu_add_sub, hy] <;> omega

/-! ## The bounds check -/

theorem inBounds_iff {p : Config.Params} {a : Int} :
    inBounds p a = true ↔ (p.lb : Int) ≤ a ∧ a + 4 ≤ (p.ub : Int) := by
  simp [inBounds]

theorem inBounds_eq_false_iff {p : Config.Params} {a : Int} :
    inBounds p a = false ↔ a < (p.lb : Int) ∨ (p.ub : Int) < a + 4 := by
  rw [← Bool.not_eq_true, inBounds_iff]
  omega

/-- Settles O55: the first and the last of the four bytes bound the other two. -/
theorem inBoundsIsEveryByteInside : Obligations.InBoundsIsEveryByteInside := by
  intro p a
  rw [inBounds_iff]
  constructor
  · intro h k hk0 hk4
    omega
  · intro h
    have hfirst := h 0 (by decide) (by decide)
    have hlast := h 3 (by decide) (by decide)
    omega

end Sys2Proof.Machine
end

section
/-! PROOFS. The rules of Write-back, Memory-access and Execute (40_pipeline.md R116 to R122): what each stage makes of
the slot it consumes. -/

namespace Sys2Proof.Machine

/-! ## What an instruction becomes from latch to latch -/

/-- The Execute latch that Execute makes of a Decode latch (40_pipeline.md R116). -/
def DPayload.executed (p : DPayload) : EPayload :=
  { op := p.op, ctl := p.ctl, rd := p.rd, sd := p.sd, fpc := p.fpc, res := alu p.ctl.aluOp p.a p.b }

/-- The Memory latch that Memory-access makes of an Execute latch over the memory `m` (40_pipeline.md R119). -/
def EPayload.accessed (p : EPayload) (m : Memory) : MPayload :=
  { op := p.op, ctl := p.ctl, rd := p.rd, res := p.res, fpc := p.fpc
    md := if p.ctl.memRead then some (sext32 (m.readWord p.res.toInt.toNat)) else none }

/-- What Memory-access leaves of the memory `m` (40_pipeline.md R121). -/
def EPayload.stored (p : EPayload) (m : Memory) : Memory :=
  if p.ctl.memWrite then m.writeWord p.res.toInt.toNat (trunc32 p.sd) else m

/-- The access of the instruction, if it makes one, is in bounds. -/
def EPayload.Allowed (p : EPayload) (par : Config.Params) : Prop :=
  p.ctl.memRead = true ∨ p.ctl.memWrite = true → inBounds par p.res.toInt = true

/-- The Write-back latch of an instruction that has written `v`, if it writes. -/
def MPayload.retired (p : MPayload) (v : Option DWord) : WPayload :=
  { op := p.op, rd := p.rd, fpc := p.fpc, wrote := v.isSome, value := (v.map (narrowed p.rd)).getD 0 }

theorem EPayload.stored_of_no_write {p : EPayload} (h : p.ctl.memWrite = false) (m : Memory) : p.stored m = m := by
  simp [EPayload.stored, h]

theorem EPayload.stored_of_write {p : EPayload} (h : p.ctl.memWrite = true) (m : Memory) :
    p.stored m = m.writeWord p.res.toInt.toNat (trunc32 p.sd) := if_pos h

/-- A write to memory keeps the canonical form. -/
theorem EPayload.stored_wf (p : EPayload) {m : Memory} (h : m.wf = true) : (p.stored m).wf = true := by
  unfold EPayload.stored
  split
  · exact Memory.writeWord_wf h _ _
  · exact h

/-! ## Errors -/

theorem State.raise_status (s : State) (code : FaultCode) (st : Stage) (pc : Word) :
    (s.raise code st pc).status = .halted { code := code, stage := st, pc := pc } := State.haltAt_status ..

/-! ## Write-back -/

theorem writeBackStep_of_empty {s : State} (h : s.lm = .empty) : writeBackStep s = { s with lw := .empty } := by
  simp [writeBackStep, h]

theorem writeBackStep_of_full {s : State} {p : MPayload} (h : s.lm = .full p) : writeBackStep s = writeBack s p := by
  simp [writeBackStep, h]

theorem writeBackStep_of_fault {s : State} {e : ErrorRecord} (h : s.lm = .fault e) :
    writeBackStep s = s.haltAt .writeBack e := by
  simp [writeBackStep, h]

theorem writeBack_of_no_regWrite (s : State) {p : MPayload} (h : p.ctl.regWrite = false) :
    writeBack s p = { s with lw := .full (p.retired none) } := if_pos h

/-- Write-back of a value to one of the ten registers: the accessor's write, and its record. -/
theorem writeBack_of_value (s : State) {p : MPayload} {v : DWord} (hw : p.ctl.regWrite = true)
    (hv : writeBackValue p = some v) (hrd : p.rd ≤ 9) :
    ∃ t, s.Written t p.rd v ∧ writeBack s p = { t with lw := .full (p.retired (some v)) } := by
  obtain ⟨t, ht, hwritten⟩ := s.writeReg_le hrd v
  exact ⟨t, hwritten, by simp [writeBack, hw, hv, ht, hwritten.readReg_same hrd, MPayload.retired]⟩

/-- What Write-back does to status: only a destination that is no register, or an error in its input, stops it. -/
theorem writeBackStep_running {s : State} (h : s.status = .running) (hclean : s.lm.clean = true)
    (hrd : ∀ p, s.lm = .full p → p.rd ≤ 9) : (writeBackStep s).status = .running := by
  cases hlm : s.lm with
  | empty => rw [writeBackStep_of_empty hlm]; exact h
  | fault e => rw [hlm] at hclean; cases hclean
  | full p =>
    rw [writeBackStep_of_full hlm]
    rcases writeBack_cases s p with ⟨-, e⟩ | ⟨v, t, x, -, -, ht, -, e⟩ | ⟨h9, -⟩
    · rw [e]; exact h
    · rw [e]
      show t.status = _
      rw [(State.written_of_writeReg ht).rest]; exact h
    · exact absurd (hrd p hlm) (Nat.not_le.2 h9)

/-- What Write-back does to the general registers, PC and FLAG: nothing, or it writes one register. -/
theorem writeBackStep_data_cases (s : State) :
    ((writeBackStep s).regs = s.regs ∧ (writeBackStep s).pc = s.pc ∧ (writeBackStep s).flag = s.flag) ∨
    (∃ p v t, s.lm = .full p ∧ p.ctl.regWrite = true ∧ writeBackValue p = some v ∧ s.Written t p.rd v ∧
      (writeBackStep s).regs = t.regs ∧ (writeBackStep s).pc = t.pc ∧ (writeBackStep s).flag = t.flag) := by
  cases hlm : s.lm with
  | empty => rw [writeBackStep_of_empty hlm]; exact .inl ⟨rfl, rfl, rfl⟩
  | fault e => rw [writeBackStep_of_fault hlm]; exact .inl ⟨rfl, rfl, rfl⟩
  | full p =>
    rw [writeBackStep_of_full hlm]
    rcases writeBack_cases s p with ⟨-, e⟩ | ⟨v, t, x, hw, hv, ht, -, e⟩ | ⟨-, e⟩
    · rw [e]; exact .inl ⟨rfl, rfl, rfl⟩
    · rw [e]; exact .inr ⟨p, v, t, rfl, hw, hv, State.written_of_writeReg ht, rfl, rfl, rfl⟩
    · rw [e]; exact .inl ⟨rfl, rfl, rfl⟩

/-! ## Memory-access -/

theorem memAccessStep_of_empty {s : State} (h : s.le = .empty) : memAccessStep s = { s with lm := .empty } := by
  simp [memAccessStep, h]

theorem memAccessStep_of_full {s : State} {p : EPayload} (h : s.le = .full p) : memAccessStep s = memAccess s p := by
  simp [memAccessStep, h]

theorem memAccessStep_of_fault {s : State} {e : ErrorRecord} (h : s.le = .fault e) :
    memAccessStep s = s.haltAt .memory e := by
  simp [memAccessStep, h]

theorem memAccess_of_allowed {s : State} {p : EPayload} (h : p.Allowed s.par) :
    memAccess s p = { s with mem := p.stored s.mem, lm := .full (p.accessed s.mem) } := by
  rcases memAccess_cases s p with ⟨hacc, hout, -⟩ | ⟨-, e⟩
  · exact absurd (h hacc) (by simp [hout])
  · exact e

theorem memAccess_of_not_allowed {s : State} {p : EPayload} (h : ¬p.Allowed s.par) :
    memAccess s p = s.raise .segfault .memory p.fpc := by
  rcases memAccess_cases s p with ⟨-, -, e⟩ | ⟨hin, -⟩
  · exact e
  · exact absurd hin h

/-- An access outside the region is not allowed. -/
theorem EPayload.not_allowed {p : EPayload} {par : Config.Params} (hacc : p.ctl.memRead = true ∨ p.ctl.memWrite = true)
    (h : p.res.toInt < (par.lb : Int) ∨ (par.ub : Int) < p.res.toInt + 4) : ¬p.Allowed par :=
  fun ha => absurd (ha hacc) (by simp [inBounds_eq_false_iff.2 h])

/-- If Memory-access leaves the core running, the access was allowed. -/
theorem allowed_of_running {s : State} {p : EPayload} (hle : s.le = .full p)
    (h : (memAccessStep s).status = .running) : p.Allowed s.par := by
  by_contra hn
  rw [memAccessStep_of_full hle, memAccess_of_not_allowed hn, State.raise, State.haltAt_status] at h
  cases h

/-! ## Execute -/

theorem executeStep_of_empty {s : State} (h : s.ld = .empty) : executeStep s = { s with le := .empty } := by
  simp [executeStep, h]

theorem executeStep_of_full {s : State} {p : DPayload} (h : s.ld = .full p) : executeStep s = execute s p := by
  simp [executeStep, h]

theorem executeStep_of_fault {s : State} {e : ErrorRecord} (h : s.ld = .fault e) :
    executeStep s = s.haltAt .execute e := by
  simp [executeStep, h]

theorem execute_of_taken {s : State} {p : DPayload} (hb : p.ctl.branch = true) (ht : taken p.op s.flag = true) :
    execute s p = { s with le := .full p.executed, pc := trunc32 (alu p.ctl.aluOp p.a p.b), flush := true } := by
  simp [execute, hb, ht, DPayload.executed]

theorem execute_of_not_taken {s : State} {p : DPayload} (h : p.ctl.branch = false ∨ taken p.op s.flag = false) :
    execute s p = { s with le := .full p.executed } := by
  rcases execute_cases s p with ⟨hb, ht, -⟩ | ⟨-, e⟩
  · rcases h with h | h <;> simp_all
  · exact e

@[simp] theorem execute_le (s : State) (p : DPayload) : (execute s p).le = .full p.executed := by
  rcases execute_cases s p with ⟨-, -, e⟩ | ⟨-, e⟩ <;> rw [e] <;> rfl

end Sys2Proof.Machine
end

section
/-! PROOFS. The older stages of a cycle together: what they leave in the latches, the registers, memory and PC, and when
they raise nothing. -/

namespace Sys2Proof.Machine

section Older
variable {s : State}

/-- The core after Write-back, the first of the older stages. -/
theorem olderStages_of_writeBack (h : (writeBackStep s.clearHazards).status = .running) :
    olderStages s = (memAccessStep (writeBackStep s.clearHazards)).andThen executeStep := by
  rw [olderStages, State.andThen_running _ h]

theorem olderStages_lm_of_empty (h : (writeBackStep s.clearHazards).status = .running) (hle : s.le = .empty) :
    (olderStages s).lm = .empty := by
  rw [olderStages_of_writeBack h, State.andThen_keeps State.lm _ _ (executeStep_lm _),
    memAccessStep_of_empty (by simp [hle])]

theorem olderStages_lm_of_full {p : EPayload} (h : (writeBackStep s.clearHazards).status = .running)
    (hle : s.le = .full p) (hp : p.Allowed s.par) : (olderStages s).lm = .full (p.accessed s.mem) := by
  rw [olderStages_of_writeBack h, State.andThen_keeps State.lm _ _ (executeStep_lm _),
    memAccessStep_of_full (p := p) (by simp [hle]), memAccess_of_allowed (by simpa using hp)]
  simp

/-- An access that is not allowed ends the older stages in Memory-access. -/
theorem olderStages_of_not_allowed {p : EPayload} (h : (writeBackStep s.clearHazards).status = .running)
    (hle : s.le = .full p) (hp : ¬p.Allowed s.par) :
    olderStages s = (writeBackStep s.clearHazards).raise .segfault .memory p.fpc := by
  rw [olderStages_of_writeBack h, memAccessStep_of_full (p := p) (by simp [hle]),
    memAccess_of_not_allowed (by simpa using hp)]
  exact State.andThen_halted _ (State.haltAt_status ..)

/-- Memory after the older stages: as it was, or with the allowed store of the Execute latch done. -/
theorem olderStages_mem_cases (s : State) :
    (olderStages s).mem = s.mem ∨
    (∃ p, s.le = .full p ∧ p.ctl.memWrite = true ∧ p.Allowed s.par ∧ (olderStages s).mem = p.stored s.mem) := by
  rw [olderStages_mem]
  rcases State.andThen_cases (writeBackStep s.clearHazards) memAccessStep with ⟨-, e⟩ | ⟨_, -, e⟩
  · rw [e]
    cases hle : s.le with
    | empty => left; rw [memAccessStep_of_empty (by simp [hle])]; simp
    | fault e => left; rw [memAccessStep_of_fault (e := e) (by simp [hle])]; simp
    | full p =>
      rw [memAccessStep_of_full (p := p) (by simp [hle])]
      by_cases hp : p.Allowed s.par
      · rw [memAccess_of_allowed (by simpa using hp)]
        by_cases hw : p.ctl.memWrite = true
        · exact .inr ⟨p, rfl, hw, hp, by simp⟩
        · exact .inl (by simp [EPayload.stored_of_no_write (Bool.eq_false_iff.2 hw)])
      · left
        rw [memAccess_of_not_allowed (by simpa using hp)]
        simp [State.raise]
  · left; rw [e]; simp

/-- Only a STORE in the Execute latch changes memory. -/
theorem olderStages_mem_of_no_write (h : ∀ p, s.le = .full p → p.ctl.memWrite = false) :
    (olderStages s).mem = s.mem := by
  rcases olderStages_mem_cases s with e | ⟨p, hle, hw, -⟩
  · exact e
  · rw [h p hle] at hw; cases hw

theorem olderStages_mem_of_full {p : EPayload} (h : (writeBackStep s.clearHazards).status = .running)
    (hle : s.le = .full p) (hp : p.Allowed s.par) : (olderStages s).mem = p.stored s.mem := by
  rw [olderStages_mem, State.andThen_running _ h, memAccessStep_of_full (p := p) (by simp [hle]),
    memAccess_of_allowed (by simpa using hp)]
  simp

/-- With no register write in the Memory latch, the older stages leave the registers. -/
theorem olderStages_sameRegs (h : ∀ p, s.lm = .full p → p.ctl.regWrite = false) : SameRegs (olderStages s) s := by
  rcases writeBackStep_data_cases s.clearHazards with ⟨hregs, -, hflag⟩ | ⟨p, v, t, hlm, hw, -⟩
  · exact ⟨fun k hk => by simp [olderStages_regs, hregs], by rw [olderStages_flag, hflag]; rfl⟩
  · rw [h p hlm] at hw; cases hw

/-- In a cycle whose older stages raise nothing, Execute acts on the state that Memory-access leaves. -/
theorem olderStages_of_full {p : DPayload} (h : (olderStages s).status = .running) (hld : s.ld = .full p) :
    olderStages s = execute (memAccessStep (writeBackStep s.clearHazards)) p := by
  obtain ⟨-, -, e⟩ := olderStages_running h
  rw [e, executeStep_of_full (p := p) (by simp [hld])]

theorem olderStages_of_empty (h : (olderStages s).status = .running) (hld : s.ld = .empty) :
    olderStages s = { memAccessStep (writeBackStep s.clearHazards) with le := .empty } := by
  obtain ⟨-, -, e⟩ := olderStages_running h
  rw [e, executeStep_of_empty (by simp [hld])]

theorem olderStages_le_of_full {p : DPayload} (h : (olderStages s).status = .running) (hld : s.ld = .full p) :
    (olderStages s).le = .full p.executed := by
  rw [olderStages_of_full h hld, execute_le]

theorem olderStages_le_of_empty (h : (olderStages s).status = .running) (hld : s.ld = .empty) :
    (olderStages s).le = .empty := by
  rw [olderStages_of_empty h hld]

/-- The PC and the flush of a cycle whose older stages raise nothing: from a taken branch, or as Write-back leaves
them. -/
theorem olderStages_redirect (h : (olderStages s).status = .running) :
    (∃ p, s.ld = .full p ∧ p.ctl.branch = true ∧ taken p.op (olderStages s).flag = true ∧
      (olderStages s).flush = true ∧ (olderStages s).pc = trunc32 (alu p.ctl.aluOp p.a p.b)) ∨
    ((∀ p, s.ld = .full p → p.ctl.branch = false ∨ taken p.op (olderStages s).flag = false) ∧
      (olderStages s).flush = false ∧ (olderStages s).pc = (writeBackStep s.clearHazards).pc) := by
  obtain ⟨-, -, e⟩ := olderStages_running h
  have hflag : (olderStages s).flag = (memAccessStep (writeBackStep s.clearHazards)).flag := by
    rw [olderStages_flag, memAccessStep_flag]
  cases hld : s.ld with
  | empty => right; rw [e, executeStep_of_empty (by simp [hld])]; simp
  | fault err => rw [e, executeStep_of_fault (e := err) (by simp [hld]), State.haltAt_status] at h; cases h
  | full p =>
    have hex := olderStages_of_full h hld
    by_cases ht : p.ctl.branch = true ∧ taken p.op (olderStages s).flag = true
    · obtain ⟨hb, ht⟩ := ht
      refine .inl ⟨p, rfl, hb, ht, ?_⟩
      rw [hex, execute_of_taken hb (hflag ▸ ht)]
      exact ⟨rfl, rfl⟩
    · have hn : p.ctl.branch = false ∨ taken p.op (olderStages s).flag = false := by
        rwa [not_and_or, Bool.not_eq_true, Bool.not_eq_true] at ht
      refine .inr ⟨fun q hq => by cases hq; exact hn, ?_⟩
      rw [hex, execute_of_not_taken (hflag ▸ hn)]
      simp

/-- The access of the Execute latch in a cycle whose older stages raise nothing. -/
theorem olderStages_allowed {p : EPayload} (h : (olderStages s).status = .running) (hle : s.le = .full p) :
    p.Allowed s.par := by
  obtain ⟨-, hmem, -⟩ := olderStages_running h
  simpa using allowed_of_running (p := p) (by simpa using hle) hmem

theorem olderStages_writeBack_running (h : (olderStages s).status = .running) :
    (writeBackStep s.clearHazards).status = .running := by
  obtain ⟨hwb, -, -⟩ := olderStages_running h
  exact hwb

/-- Write-back of a value: the accessor's write and its record. -/
theorem writeBackStep_of_value {p : MPayload} {v : DWord} (hlm : s.lm = .full p)
    (hw : p.ctl.regWrite = true) (hv : writeBackValue p = some v) (hrd : p.rd ≤ 9) :
    ∃ t, s.clearHazards.Written t p.rd v ∧
      writeBackStep s.clearHazards = { t with lw := .full (p.retired (some v)) } := by
  rw [writeBackStep_of_full (s := s.clearHazards) (p := p) hlm]
  exact writeBack_of_value _ hw hv hrd

end Older

end Sys2Proof.Machine
end

section
/-! PROOFS. The rules of Decode and Fetch (40_pipeline.md R110 to R115): what each can make of the state before it. -/

namespace Sys2Proof.Machine

/-- Decode's hand-over: the instruction in the Decode latch, and the request for stall and bubble of a CMP
(40_pipeline.md R111, R114). -/
def State.issued (s : State) (p : DPayload) : State :=
  { s with ld := .full p, stall := decide (p.op = .cmp), bubbleNext := decide (p.op = .cmp) }

section Issued
variable (s : State) (p : DPayload)
@[simp] theorem State.issued_regs : (s.issued p).regs = s.regs := rfl
@[simp] theorem State.issued_pc : (s.issued p).pc = s.pc := rfl
@[simp] theorem State.issued_flag : (s.issued p).flag = s.flag := rfl
@[simp] theorem State.issued_lf : (s.issued p).lf = s.lf := rfl
@[simp] theorem State.issued_ld : (s.issued p).ld = .full p := rfl
@[simp] theorem State.issued_le : (s.issued p).le = s.le := rfl
@[simp] theorem State.issued_lm : (s.issued p).lm = s.lm := rfl
@[simp] theorem State.issued_lw : (s.issued p).lw = s.lw := rfl
@[simp] theorem State.issued_stall : (s.issued p).stall = decide (p.op = .cmp) := rfl
@[simp] theorem State.issued_bubbleNext : (s.issued p).bubbleNext = decide (p.op = .cmp) := rfl
@[simp] theorem State.issued_flush : (s.issued p).flush = s.flush := rfl
@[simp] theorem State.issued_status : (s.issued p).status = s.status := rfl
@[simp] theorem State.issued_mem : (s.issued p).mem = s.mem := rfl
@[simp] theorem State.issued_par : (s.issued p).par = s.par := rfl
end Issued

/-- The Decode latch of an instruction fetched from `fpc`, with its operand values (40_pipeline.md R111). -/
def latchOf (i : Instr) (a b sd : DWord) (fpc : Word) : DPayload :=
  { op := i.mnemonic, ctl := signalsFor i.mnemonic, rd := normDest i, a := a, b := b, sd := sd, fpc := fpc }

theorem issue_eq_issued {i : Instr} (h : i.wf = true) (fpc : Word) (s : State) :
    ∃ a b sd, readOperand s (normSrc1 i) fpc = some a ∧ readSource2 s i.src2 fpc = some b ∧
      readOperand s (normDest i) fpc = some sd ∧ issue (issueOf i) fpc s = s.issued (latchOf i a b sd fpc) :=
  issue_of_wf h fpc s

/-- The register fields of a well-formed instruction are register indices. -/
theorem wf_fields {i : Instr} (h : i.wf = true) : i.rd.toNat ≤ 9 ∧ i.rs1.toNat ≤ 9 ∧ i.src2.wf = true := by
  simp only [Instr.wf, regFieldWf, Config.numRegs, Bool.and_eq_true, decide_eq_true_eq] at h
  obtain ⟨⟨hrd, hrs1⟩, hsrc2⟩ := h
  exact ⟨by omega, by omega, hsrc2⟩

theorem normDest_le {i : Instr} (h : i.wf = true) : normDest i ≤ 9 := by
  obtain ⟨hrd, -, -⟩ := wf_fields h
  unfold normDest
  split
  · exact Nat.le_refl 9
  · exact hrd

/-- Decode hands on the instruction's own signals and a register index. -/
theorem carriedOk_of_wf {i : Instr} (h : i.wf = true) : CarriedOk i.mnemonic (signalsFor i.mnemonic) (normDest i) :=
  ⟨rfl, normDest_le h, fun hr => if_pos hr⟩

/-- What Decode makes of the word at its input: an error of its own, or an instruction handed on. -/
def Decodes (d : Word → State → State) : Prop :=
  ∀ fpc s,
    (∃ code, (code = .invalidOpcode ∨ code = .invalidReg) ∧ d fpc s = s.raise code .decode fpc) ∨
    (∃ p, p.fpc = fpc ∧ CarriedOk p.op p.ctl p.rd ∧ d fpc s = s.issued p)

theorem decodeFails_decodes (err : DecodeError) : Decodes (decodeFails err) := by
  intro fpc s
  refine .inl ⟨decodeFaultCode err, ?_, rfl⟩
  cases err with
  | invalidOpcode => exact .inl rfl
  | invalidRd => exact .inr rfl
  | invalidRs1 => exact .inr rfl
  | invalidSrc2 => exact .inr rfl

/-- Decode of an ill-formed instruction raises the error of the check that fails. -/
theorem issue_of_not_wf {i : Instr} (h : ¬i.wf = true) : ∃ err, issue (issueOf i) = decodeFails err := by
  obtain ⟨err, herr⟩ := Option.ne_none_iff_exists'.1 (mt (operandError_eq_none_iff i).1 h)
  exact ⟨err, funext fun fpc => funext fun s => by simp [issue, issueOf, herr]⟩

theorem issue_decodes (i : Instr) : Decodes (issue (issueOf i)) := by
  by_cases h : i.wf = true
  · intro fpc s
    obtain ⟨a, b, sd, -, -, -, e⟩ := issue_eq_issued h fpc s
    exact .inr ⟨_, rfl, carriedOk_of_wf h, e⟩
  · obtain ⟨err, e⟩ := issue_of_not_wf h
    rw [e]
    exact decodeFails_decodes err

/-- What Decode does with a word matters only where one stands at its input. -/
theorem cycle_congr_of_lf {s : State} (h : ∀ p, s.lf ≠ .full p) (d d' : Word → State → State) :
    cycle d s = cycle d' s := by
  have hstep : decodeStep s.bubbleNext d (olderStages s) = decodeStep s.bubbleNext d' (olderStages s) := by
    unfold decodeStep
    rw [olderStages_lf]
    cases hlf : s.lf with
    | empty => rfl
    | full p => exact absurd hlf (h p)
    | fault e => rfl
  unfold cycle
  rcases State.andThen_cases (olderStages s) (decodeStep s.bubbleNext d) with ⟨hr, -⟩ | ⟨e, hh, -⟩
  · rw [State.andThen_running _ hr, State.andThen_running _ hr, hstep]
  · rw [State.andThen_halted (decodeStep _ d) hh, State.andThen_halted (decodeStep _ d') hh]

theorem clockIdle_eq {s : State} (h : ∀ p, s.lf ≠ .full p) (d : Word → State → State) :
    clockIdle s = clockCycle d s := by
  simp only [clockIdle, clockCycle, cycle_congr_of_lf h (fun _ t => t) d]

/-- Every step is a clock cycle whose Decode raises an error of its own or hands an instruction on. -/
theorem step_eq_clockCycle_decodes (s : State) : ∃ d, DecodesOnly d ∧ Decodes d ∧ step s = clockCycle d s := by
  by_cases hlf : ∃ p, s.lf = .full p
  · obtain ⟨p, hlf⟩ := hlf
    cases hd : decodeWord s.par.opcodeMap p.word with
    | ok i => exact ⟨_, issue_decodesOnly _, issue_decodes i, by simp [step, hlf, hd, exec_eq_clockCycle]⟩
    | error err => exact ⟨_, decodeFails_decodesOnly err, decodeFails_decodes err, by simp [step, hlf, hd, clockInvalid]⟩
  · have hidle : step s = clockIdle s := by
      unfold step
      split
      · exact absurd ⟨_, ‹_›⟩ hlf
      · rfl
    exact ⟨_, decodeFails_decodesOnly .invalidOpcode, decodeFails_decodes _,
      hidle.trans (clockIdle_eq (not_exists.1 hlf) _)⟩

/-- The core with nothing handed on by Decode (40_pipeline.md R126, R129). -/
def State.undecoded (s : State) : State := { s with ld := .empty }

section Undecoded
variable (s : State)
@[simp] theorem State.undecoded_regs : s.undecoded.regs = s.regs := rfl
@[simp] theorem State.undecoded_pc : s.undecoded.pc = s.pc := rfl
@[simp] theorem State.undecoded_flag : s.undecoded.flag = s.flag := rfl
@[simp] theorem State.undecoded_lf : s.undecoded.lf = s.lf := rfl
@[simp] theorem State.undecoded_ld : s.undecoded.ld = .empty := rfl
@[simp] theorem State.undecoded_le : s.undecoded.le = s.le := rfl
@[simp] theorem State.undecoded_lm : s.undecoded.lm = s.lm := rfl
@[simp] theorem State.undecoded_lw : s.undecoded.lw = s.lw := rfl
@[simp] theorem State.undecoded_stall : s.undecoded.stall = s.stall := rfl
@[simp] theorem State.undecoded_bubbleNext : s.undecoded.bubbleNext = s.bubbleNext := rfl
@[simp] theorem State.undecoded_flush : s.undecoded.flush = s.flush := rfl
@[simp] theorem State.undecoded_status : s.undecoded.status = s.status := rfl
@[simp] theorem State.undecoded_mem : s.undecoded.mem = s.mem := rfl
@[simp] theorem State.undecoded_par : s.undecoded.par = s.par := rfl
end Undecoded

/-- What step 4 of a cycle can make of the state `u` that the older stages leave (40_pipeline.md R131). -/
inductive DecodeOutcome (bubble : Bool) (u : State) : State → Prop
  | nothing (h : u.flush = true ∨ bubble = true ∨ u.lf = .empty) : DecodeOutcome bubble u u.undecoded
  | passedOn (e : ErrorRecord) (h : u.flush = false) (hb : bubble = false) (hlf : u.lf = .fault e) :
      DecodeOutcome bubble u (u.haltAt .decode e)
  | raised (p : FPayload) (code : FaultCode) (h : u.flush = false) (hb : bubble = false) (hlf : u.lf = .full p)
      (hcode : code = .invalidOpcode ∨ code = .invalidReg) : DecodeOutcome bubble u (u.raise code .decode p.fpc)
  | issued (p : FPayload) (q : DPayload) (h : u.flush = false) (hb : bubble = false) (hlf : u.lf = .full p)
      (hfpc : q.fpc = p.fpc) (hq : CarriedOk q.op q.ctl q.rd) : DecodeOutcome bubble u (u.issued q)

theorem decodeStep_outcome {d : Word → State → State} (hd : Decodes d) (b : Bool) (u : State) :
    DecodeOutcome b u (decodeStep b d u) := by
  unfold decodeStep
  split
  · exact .nothing (.inl ‹_›)
  have hflush : u.flush = false := Bool.eq_false_iff.2 ‹_›
  split
  · exact .nothing (.inr (.inl ‹_›))
  have hb : b = false := Bool.eq_false_iff.2 ‹_›
  split
  case _ hlf => exact .nothing (.inr (.inr hlf))
  case _ p hlf =>
    rcases hd p.fpc u with ⟨code, hcode, e⟩ | ⟨q, hfpc, hq, e⟩ <;> rw [e]
    · exact .raised p code hflush hb hlf hcode
    · exact .issued p q hflush hb hlf hfpc hq
  case _ e hlf => exact .passedOn e hflush hb hlf

/-! ## Fetch -/

/-- The core with the word at PC fetched and PC past it (40_pipeline.md R110). -/
def State.fetched (s : State) : State :=
  { s with lf := .full { word := s.mem.readWord s.pc.toInt.toNat, fpc := s.pc }, pc := s.pc + 4 }

/-- The core with the Fetch latch emptied by a flush (40_pipeline.md R129). -/
def State.unfetched (s : State) : State := { s with lf := .empty }

section Fetched
variable (s : State)
@[simp] theorem State.fetched_pc : s.fetched.pc = s.pc + 4 := rfl
@[simp] theorem State.fetched_lf :
    s.fetched.lf = .full { word := s.mem.readWord s.pc.toInt.toNat, fpc := s.pc } := rfl
@[simp] theorem State.fetched_status : s.fetched.status = s.status := rfl
@[simp] theorem State.unfetched_pc : s.unfetched.pc = s.pc := rfl
@[simp] theorem State.unfetched_lf : s.unfetched.lf = .empty := rfl
@[simp] theorem State.unfetched_status : s.unfetched.status = s.status := rfl
end Fetched

section Fetch
variable {s : State}

theorem fetchStep_of_flush (h : s.flush = true) (b : Bool) : fetchStep b s = s.unfetched := if_pos h

theorem fetchStep_of_stall (h : s.flush = false) : fetchStep true s = s := by simp [fetchStep, h]

theorem fetchStep_of_inBounds (h : s.flush = false) (hin : inBounds s.par s.pc.toInt = true) :
    fetchStep false s = s.fetched := by
  simp [fetchStep, h, fetch, hin, State.fetched]

theorem fetchStep_of_outOfBounds (h : s.flush = false) (hout : inBounds s.par s.pc.toInt = false) :
    fetchStep false s = s.raise .segfault .fetch s.pc := by
  simp [fetchStep, h, fetch, hout]

/-- What step 5 of a cycle can make of the state `s` that Decode leaves (40_pipeline.md R131). -/
theorem fetchStep_cases (stall : Bool) (s : State) :
    (s.flush = true ∧ fetchStep stall s = s.unfetched) ∨
    (s.flush = false ∧ stall = true ∧ fetchStep stall s = s) ∨
    (s.flush = false ∧ stall = false ∧ inBounds s.par s.pc.toInt = true ∧ fetchStep stall s = s.fetched) ∨
    (s.flush = false ∧ stall = false ∧ inBounds s.par s.pc.toInt = false ∧
      fetchStep stall s = s.raise .segfault .fetch s.pc) := by
  by_cases hf : s.flush = true
  · exact .inl ⟨hf, fetchStep_of_flush hf stall⟩
  rw [Bool.not_eq_true] at hf
  cases stall with
  | true => exact .inr (.inl ⟨hf, rfl, fetchStep_of_stall hf⟩)
  | false =>
    by_cases hin : inBounds s.par s.pc.toInt = true
    · exact .inr (.inr (.inl ⟨hf, rfl, hin, fetchStep_of_inBounds hf hin⟩))
    · rw [Bool.not_eq_true] at hin
      exact .inr (.inr (.inr ⟨hf, rfl, hin, fetchStep_of_outOfBounds hf hin⟩))

end Fetch

end Sys2Proof.Machine
end

section
/-! PROOFS. The whole cycle (40_pipeline.md R131): what one step is and leaves alone, and the cycle of a flush, of a
bubble and of an instruction at Decode. -/

namespace Sys2Proof.Machine

/-- Every step that answers a next state: a cycle with a Decode of that kind, over allowed arguments. -/
theorem step_next_decodes {s t : State} (h : step s = .next t) :
    s.status = .running ∧ s.par.Wf ∧ ∃ d, DecodesOnly d ∧ Decodes d ∧ t = cycle d s := by
  obtain ⟨d, hd, hdec, hs⟩ := step_eq_clockCycle_decodes s
  obtain ⟨hr, hp, ht⟩ := clockCycle_next (hs ▸ h)
  exact ⟨hr, hp, d, hd, hdec, ht⟩

/-- `t` differs from `u` only in what Decode and Fetch write: PC, the Fetch and Decode latches, the two requests and the
status. -/
structure FrontOnly (t u : State) : Prop where
  regs : t.regs = u.regs
  flag : t.flag = u.flag
  le : t.le = u.le
  lm : t.lm = u.lm
  lw : t.lw = u.lw
  flush : t.flush = u.flush
  mem : t.mem = u.mem
  par : t.par = u.par

theorem cycle_frontOnly {d : Word → State → State} (hd : DecodesOnly d) (s : State) :
    FrontOnly (cycle d s) (olderStages s) :=
  ⟨cycle_regs hd s, cycle_flag hd s, cycle_le hd s, cycle_lm hd s, cycle_lw hd s, cycle_flush hd s, cycle_mem hd s,
    (cycle_par hd s).trans (olderStages_par s).symm⟩

theorem step_frontOnly {s t : State} (h : step s = .next t) : FrontOnly t (olderStages s) := by
  obtain ⟨-, -, d, hd, rfl⟩ := step_next h
  exact cycle_frontOnly hd s

theorem exec_frontOnly {i : Instr} {s t : State} (h : exec i s = .next t) : FrontOnly t (olderStages s) := by
  obtain ⟨-, -, rfl⟩ := exec_next h
  exact cycle_frontOnly (issue_decodesOnly _) s

theorem FrontOnly.trans {t u v : State} (h : FrontOnly t u) (h' : FrontOnly u v) : FrontOnly t v :=
  ⟨h.regs.trans h'.regs, h.flag.trans h'.flag, h.le.trans h'.le, h.lm.trans h'.lm, h.lw.trans h'.lw,
    h.flush.trans h'.flush, h.mem.trans h'.mem, h.par.trans h'.par⟩

theorem undecoded_frontOnly (s : State) : FrontOnly s.undecoded s := ⟨rfl, rfl, rfl, rfl, rfl, rfl, rfl, rfl⟩

theorem issued_frontOnly (s : State) (p : DPayload) : FrontOnly (s.issued p) s :=
  ⟨rfl, rfl, rfl, rfl, rfl, rfl, rfl, rfl⟩

theorem fetchStep_frontOnly (b : Bool) (s : State) : FrontOnly (fetchStep b s) s :=
  ⟨by simp, by simp, by simp, by simp, by simp, by simp, by simp, by simp⟩

theorem FrontOnly.sameData {t u : State} (h : FrontOnly t u) : SameData t u :=
  { regs := fun k hk => by simp only [h.regs], flag := h.flag, mem := fun x => by rw [h.mem] }

theorem step_par {s t : State} (h : step s = .next t) : t.par = s.par :=
  (step_frontOnly h).par.trans (olderStages_par s)

/-- In a cycle that leaves the core running the older stages did. -/
theorem olderStages_running_of_cycle {d : Word → State → State} {s : State} (h : (cycle d s).status = .running) :
    (olderStages s).status = .running := by
  cases holder : (olderStages s).status with
  | running => rfl
  | halted e => rw [cycle_of_halted holder, holder] at h; exact h

/-- The cycle of a flush: nothing is decoded and nothing is fetched (40_pipeline.md R129). -/
theorem cycle_of_flush {s : State} (d : Word → State → State) (h : (olderStages s).status = .running)
    (hf : (olderStages s).flush = true) : cycle d s = (olderStages s).undecoded.unfetched := by
  have hdec : decodeStep s.bubbleNext d (olderStages s) = (olderStages s).undecoded := if_pos hf
  rw [cycle_of_running h, hdec, State.andThen_running _ (by exact h), fetchStep_of_flush (by exact hf)]

/-- The cycle of a bubble: nothing is decoded (40_pipeline.md R126). -/
theorem cycle_of_bubble {s : State} (d : Word → State → State) (h : (olderStages s).status = .running)
    (hf : (olderStages s).flush = false) (hb : s.bubbleNext = true) :
    cycle d s = fetchStep s.stall (olderStages s).undecoded := by
  have hdec : decodeStep s.bubbleNext d (olderStages s) = (olderStages s).undecoded := by
    simp [decodeStep, hf, hb, State.undecoded]
  rw [cycle_of_running h, hdec, State.andThen_running _ (by exact h)]

/-- The cycle of an empty Fetch latch. -/
theorem cycle_of_lf_empty {s : State} (d : Word → State → State) (h : (olderStages s).status = .running)
    (hf : (olderStages s).flush = false) (hb : s.bubbleNext = false) (hlf : s.lf = .empty) :
    cycle d s = fetchStep s.stall (olderStages s).undecoded := by
  have hdec : decodeStep s.bubbleNext d (olderStages s) = (olderStages s).undecoded := by
    simp [decodeStep, hf, hb, hlf, State.undecoded]
  rw [cycle_of_running h, hdec, State.andThen_running _ (by exact h)]

/-- The cycle of an instruction at Decode: `exec` answers what Fetch makes of the instruction handed on. -/
theorem AtDecode.exec_wf {s : State} {w fpc : Word} {i : Instr} (h : AtDecode s w fpc) (hi : i.wf = true) :
    ∃ a b sd, readOperand (olderStages s) (normSrc1 i) fpc = some a ∧ readSource2 (olderStages s) i.src2 fpc = some b ∧
      readOperand (olderStages s) (normDest i) fpc = some sd ∧
      exec i s = .next (fetchStep s.stall ((olderStages s).issued (latchOf i a b sd fpc))) := by
  obtain ⟨a, b, sd, ha, hb, hsd, e⟩ := issue_eq_issued hi fpc (olderStages s)
  refine ⟨a, b, sd, ha, hb, hsd, ?_⟩
  rw [exec_eq_clockCycle, clockCycle_running _ h.running h.par, h.cycle, e,
    State.andThen_running _ (by exact h.older)]

/-- The word at Decode's input chooses the meaning. -/
theorem step_of_decodeWord {s : State} {w fpc : Word} {i : Instr} (hlf : s.lf = .full { word := w, fpc := fpc })
    (hd : decodeWord s.par.opcodeMap w = .ok i) : step s = exec i s := by
  simp [step, hlf, hd]

end Sys2Proof.Machine
end

section
/-! PROOFS. The invariant of the core (10_state.md R29 to R34): it holds after reset, each stage of a cycle keeps its
part of it, and so does every step. -/

namespace Sys2Proof.Machine

/-! ## The part of the invariant about arguments, memory and latch contents -/

/-- What `Inv` says of the arguments, the memory and the instructions in the latches, whatever the hazard flags and the
status are. Every stage keeps it. -/
structure Contents (s : State) : Prop where
  par : s.par.Wf
  mem : s.mem.wf = true
  region : ∀ c ∈ s.mem, s.par.lb ≤ c.1 ∧ c.1 < s.par.ub
  lf : s.lf.All fun p => inBounds s.par p.fpc.toInt = true
  ld : s.ld.All fun p => CarriedOk p.op p.ctl p.rd
  le : s.le.All fun p => CarriedOk p.op p.ctl p.rd
  lm : s.lm.All fun p => CarriedOk p.op p.ctl p.rd ∧ p.md.isSome = p.ctl.memRead

theorem Inv.contents {s : State} (h : Inv s) : Contents s := ⟨h.par, h.mem, h.region, h.lf, h.ld, h.le, h.lm⟩

namespace Contents
variable {s : State}

theorem haltAt (h : Contents s) (st : Stage) (e : ErrorRecord) : Contents (s.haltAt st e) := by
  cases st with
  | fetch => exact { h with lf := trivial }
  | decode => exact { h with ld := trivial }
  | execute => exact { h with le := trivial }
  | memory => exact { h with lm := trivial }
  | writeBack => exact { h with }

theorem writeBackStep (h : Contents s) : Contents (writeBackStep s) where
  par := by simpa using h.par
  mem := by simpa using h.mem
  region := by simpa using h.region
  lf := by simpa using h.lf
  ld := by simpa using h.ld
  le := by simpa using h.le
  lm := by simpa using h.lm

/-- An allowed store lists no address outside the region. -/
theorem stored_region {p : EPayload} (h : Contents s) (hp : p.Allowed s.par) :
    ∀ c ∈ p.stored s.mem, s.par.lb ≤ c.1 ∧ c.1 < s.par.ub := by
  intro c hc
  by_cases hw : p.ctl.memWrite = true
  · obtain ⟨hlo, hhi⟩ := inBounds_iff.1 (hp (.inr hw))
    rw [EPayload.stored_of_write hw] at hc
    rcases Memory.mem_writeWord hc with hin | hin
    · omega
    · exact h.region c hin
  · rw [EPayload.stored_of_no_write (Bool.eq_false_iff.2 hw)] at hc
    exact h.region c hc

theorem memAccess {p : EPayload} (h : Contents s) (hle : s.le = .full p) (hp : p.Allowed s.par) :
    Contents (memAccess s p) := by
  rw [memAccess_of_allowed hp]
  have hcarried : CarriedOk p.op p.ctl p.rd := by
    have hall := h.le
    rw [hle] at hall
    exact hall
  have hmd : (p.accessed s.mem).md.isSome = p.ctl.memRead := by
    simp only [EPayload.accessed]
    cases p.ctl.memRead <;> rfl
  exact { h with mem := p.stored_wf h.mem, region := h.stored_region hp, lm := ⟨hcarried, hmd⟩ }

theorem memAccessStep (h : Contents s) (hp : ∀ p, s.le = .full p → p.Allowed s.par) : Contents (memAccessStep s) := by
  cases hle : s.le with
  | empty => rw [memAccessStep_of_empty hle]; exact { h with lm := trivial }
  | full p => rw [memAccessStep_of_full hle]; exact h.memAccess hle (hp p hle)
  | fault e => rw [memAccessStep_of_fault hle]; exact h.haltAt .memory e

theorem executeStep (h : Contents s) : Contents (executeStep s) := by
  cases hld : s.ld with
  | empty => rw [executeStep_of_empty hld]; exact { h with le := trivial }
  | fault e => rw [executeStep_of_fault hld]; exact h.haltAt .execute e
  | full p =>
    have hcarried : CarriedOk p.op p.ctl p.rd := by
      have hall := h.ld
      rw [hld] at hall
      exact hall
    rw [executeStep_of_full hld]
    rcases execute_cases s p with ⟨-, -, e⟩ | ⟨-, e⟩ <;> rw [e]
    · exact { h with le := hcarried }
    · exact { h with le := hcarried }

end Contents

/-! ## The part about errors -/

theorem State.clean_iff {s : State} : s.clean = true ↔
    s.lf.clean = true ∧ s.ld.clean = true ∧ s.le.clean = true ∧ s.lm.clean = true ∧ s.lw.clean = true := by
  simp [State.clean, and_assoc]

/-- The core runs and no slot holds an error. -/
structure Healthy (s : State) : Prop where
  running : s.status = .running
  clean : s.clean = true

/-- An error raised by Fetch, Decode or Memory-access in a healthy core stands in that stage's slot alone. -/
theorem Healthy.faultedAt_raise {s : State} (h : Healthy s) (code : FaultCode) {st : Stage} (pc : Word)
    (hst : st = .fetch ∨ st = .decode ∨ st = .memory) :
    (s.raise code st pc).faultedAt { code := code, stage := st, pc := pc } := by
  obtain ⟨hlf, hld, hle, hlm, hlw⟩ := State.clean_iff.1 h.clean
  rcases hst with rfl | rfl | rfl
  · exact ⟨rfl, hld, hle, hlm, hlw⟩
  · exact ⟨hlf, rfl, hle, hlm, hlw⟩
  · exact ⟨hlf, hld, hle, rfl, hlw⟩

/-- Write-back's own slot holds no error while the core runs. -/
theorem writeBackStep_lw_clean {s : State} (h : (writeBackStep s).status = .running) :
    (writeBackStep s).lw.clean = true := by
  cases hlm : s.lm with
  | empty => rw [writeBackStep_of_empty hlm]; rfl
  | fault e => rw [writeBackStep_of_fault hlm, State.haltAt_status] at h; cases h
  | full p =>
    rw [writeBackStep_of_full hlm] at h ⊢
    rcases writeBack_cases s p with ⟨-, e⟩ | ⟨v, t, x, -, -, -, -, e⟩ | ⟨-, e⟩
    · rw [e]; rfl
    · rw [e]; rfl
    · rw [e, State.raise, State.haltAt_status] at h; cases h

namespace Healthy
variable {s : State}

/-- Write-back of the latches of a run raises nothing (40_pipeline.md R133). -/
theorem writeBackStep (h : Healthy s) (hc : Contents s) : Healthy (writeBackStep s) := by
  obtain ⟨hlf, hld, hle, hlm, -⟩ := State.clean_iff.1 h.clean
  have hrun := writeBackStep_running h.running hlm fun p hp => by
    have hall := hc.lm
    rw [hp] at hall
    exact hall.1.rd_le
  exact ⟨hrun, State.clean_iff.2 ⟨by simpa using hlf, by simpa using hld, by simpa using hle, by simpa using hlm,
    writeBackStep_lw_clean hrun⟩⟩

theorem memAccessStep (h : Healthy s) (hp : ∀ p, s.le = .full p → p.Allowed s.par) : Healthy (memAccessStep s) := by
  obtain ⟨hlf, hld, hle, -, hlw⟩ := State.clean_iff.1 h.clean
  cases hle' : s.le with
  | empty =>
    rw [memAccessStep_of_empty hle']
    exact ⟨h.running, State.clean_iff.2 ⟨hlf, hld, hle, rfl, hlw⟩⟩
  | fault e => rw [hle'] at hle; cases hle
  | full p =>
    rw [memAccessStep_of_full hle', memAccess_of_allowed (hp p hle')]
    exact ⟨h.running, State.clean_iff.2 ⟨hlf, hld, hle, rfl, hlw⟩⟩

/-- Execute raises nothing (40_pipeline.md R133). -/
theorem executeStep (h : Healthy s) : Healthy (executeStep s) := by
  obtain ⟨hlf, hld, -, hlm, hlw⟩ := State.clean_iff.1 h.clean
  cases hld' : s.ld with
  | empty =>
    rw [executeStep_of_empty hld']
    exact ⟨h.running, State.clean_iff.2 ⟨hlf, hld, rfl, hlm, hlw⟩⟩
  | fault e => rw [hld'] at hld; cases hld
  | full p =>
    rw [executeStep_of_full hld']
    refine ⟨(execute_status s p).trans h.running, State.clean_iff.2 ?_⟩
    rw [execute_le]
    exact ⟨by simpa using hlf, by simpa using hld, rfl, by simpa using hlm, by simpa using hlw⟩

end Healthy

/-! ## The older stages of a core in the invariant -/

/-- How the older stages of a cycle end: in a healthy core, or in a Segfault of Memory-access with Write-back's work
done and no flush requested (40_pipeline.md R132, R133). -/
theorem Inv.olderStages_cases {s : State} (h : Inv s) (hr : s.status = .running) :
    Healthy (olderStages s) ∧ Contents (olderStages s) ∨
    (∃ p, s.le = .full p ∧ Healthy (writeBackStep s.clearHazards) ∧ Contents (writeBackStep s.clearHazards) ∧
      olderStages s = (writeBackStep s.clearHazards).raise .segfault .memory p.fpc) := by
  have hc0 : Contents s.clearHazards := { h.contents with }
  have hh0 : Healthy s.clearHazards := ⟨hr, h.running hr⟩
  have hc1 := hc0.writeBackStep
  have hh1 := hh0.writeBackStep hc0
  by_cases hp : ∀ p, s.le = .full p → p.Allowed s.par
  · have hp' : ∀ p, (writeBackStep s.clearHazards).le = .full p → p.Allowed (writeBackStep s.clearHazards).par := by
      simpa using hp
    have hh2 := hh1.memAccessStep hp'
    have hrun : olderStages s = executeStep (memAccessStep (writeBackStep s.clearHazards)) := by
      rw [olderStages_of_writeBack hh1.running, State.andThen_running _ hh2.running]
    rw [hrun]
    exact .inl ⟨hh2.executeStep, (hc1.memAccessStep hp').executeStep⟩
  · simp only [not_forall] at hp
    obtain ⟨p, hle, hna⟩ := hp
    exact .inr ⟨p, hle, hh1, hc1, olderStages_of_not_allowed hh1.running hle hna⟩

/-! ## Decode and Fetch -/

/-- The invariant of a core between Decode and Fetch of a cycle without a flush: healthy, with stall and bubble
requested exactly for a CMP in the Decode latch. -/
structure Decoded (s : State) : Prop extends Contents s, Healthy s where
  flush : s.flush = false
  hazards : s.stall = s.bubbleNext
  stalled : s.stall = true → ∃ p, s.ld = .full p ∧ p.op = .cmp
  pending : ∀ p, s.ld = .full p → p.op = .cmp → s.stall = true

/-- With no flush and a healthy core between them, `Decoded` is the whole invariant. -/
theorem Decoded.inv {s : State} (h : Decoded s) : Inv s :=
  { h.toContents with
    hazards := h.hazards
    stalled := h.stalled
    pending := fun _ => h.pending
    flushed := fun hf => by rw [h.flush] at hf; cases hf
    running := fun _ => h.clean
    halted := fun e he => by rw [h.running] at he; cases he }

section Decode
variable {u : State}

theorem decoded_undecoded (hc : Contents u) (hh : Healthy u) (hflush : u.flush = false) (hstall : u.stall = false)
    (hbubble : u.bubbleNext = false) : Decoded u.undecoded where
  toContents := { hc with ld := trivial }
  running := hh.running
  clean := by
    obtain ⟨hlf, -, hle, hlm, hlw⟩ := State.clean_iff.1 hh.clean
    exact State.clean_iff.2 ⟨hlf, rfl, hle, hlm, hlw⟩
  flush := hflush
  hazards := hstall.trans hbubble.symm
  stalled := fun hs => by rw [State.undecoded_stall, hstall] at hs; cases hs
  pending := fun p hp => by simp at hp

theorem decoded_issued {p : DPayload} (hc : Contents u) (hh : Healthy u) (hflush : u.flush = false)
    (hp : CarriedOk p.op p.ctl p.rd) : Decoded (u.issued p) where
  toContents := { hc with ld := hp }
  running := hh.running
  clean := by
    obtain ⟨hlf, -, hle, hlm, hlw⟩ := State.clean_iff.1 hh.clean
    exact State.clean_iff.2 ⟨hlf, rfl, hle, hlm, hlw⟩
  flush := hflush
  hazards := rfl
  stalled := fun hs => ⟨p, rfl, by simpa using hs⟩
  pending := fun q hq hop => by cases hq; simpa using hop

/-- A core halted by Fetch, Decode or Memory-access with no flush pending keeps the invariant. -/
theorem inv_raise {s : State} (hc : Contents s) (hh : Healthy s) (hflush : s.flush = false)
    (hhazards : s.stall = s.bubbleNext) (code : FaultCode) {st : Stage} (pc : Word)
    (hst : st = .fetch ∨ st = .decode ∨ st = .memory)
    (hstalled : s.stall = true → ∃ p, (s.raise code st pc).ld = .full p ∧ p.op = .cmp) :
    Inv (s.raise code st pc) :=
  { hc.haltAt st _ with
    hazards := by simpa [State.raise] using hhazards
    stalled := fun hs => hstalled (by simpa [State.raise] using hs)
    pending := fun hrun => by simp [State.raise] at hrun
    flushed := fun hf => by simp [State.raise, hflush] at hf
    running := fun hrun => by simp [State.raise] at hrun
    halted := fun e he => by
      obtain rfl := Status.halted.inj ((State.raise_status ..).symm.trans he)
      exact hh.faultedAt_raise code pc hst }

/-- Fetch completes the invariant. -/
theorem Decoded.fetchStep {s : State} (h : Decoded s) (stall : Bool) : Inv (fetchStep stall s) := by
  rcases fetchStep_cases stall s with ⟨hf, -⟩ | ⟨-, -, e⟩ | ⟨-, -, hin, e⟩ | ⟨-, -, -, e⟩
  · rw [h.flush] at hf; cases hf
  · rw [e]; exact h.inv
  · rw [e]
    obtain ⟨-, hld, hle, hlm, hlw⟩ := State.clean_iff.1 h.clean
    exact Decoded.inv { h with lf := hin, clean := State.clean_iff.2 ⟨rfl, hld, hle, hlm, hlw⟩ }
  · rw [e]
    exact inv_raise h.toContents h.toHealthy h.flush h.hazards .segfault s.pc (.inl rfl) h.stalled

/-- A flush empties the two upstream slots and requests nothing. -/
theorem inv_flushed (hc : Contents u) (hh : Healthy u) (hstall : u.stall = false) (hbubble : u.bubbleNext = false) :
    Inv u.undecoded.unfetched := by
  obtain ⟨-, -, hle, hlm, hlw⟩ := State.clean_iff.1 hh.clean
  exact
    { hc with
      lf := trivial
      ld := trivial
      hazards := hstall.trans hbubble.symm
      stalled := fun hs => absurd (hs.symm.trans hstall) (by decide)
      pending := fun _ p hp => by cases hp
      flushed := fun _ => ⟨rfl, rfl⟩
      running := fun _ => State.clean_iff.2 ⟨rfl, rfl, hle, hlm, hlw⟩
      halted := fun e he => by cases he.symm.trans hh.running }

end Decode

/-- Decode and Fetch after older stages that raised nothing. -/
theorem inv_front {s : State} {d : Word → State → State} (hd : Decodes d) (hc : Contents (olderStages s))
    (hh : Healthy (olderStages s)) : Inv (cycle d s) := by
  have hstall := olderStages_stall s
  have hbubble := olderStages_bubbleNext s
  by_cases hf : (olderStages s).flush = true
  · rw [cycle_of_flush d hh.running hf]
    exact inv_flushed hc hh hstall hbubble
  rw [Bool.not_eq_true] at hf
  rw [cycle_of_running hh.running]
  have hout := decodeStep_outcome hd s.bubbleNext (olderStages s)
  generalize decodeStep s.bubbleNext d (olderStages s) = v at hout ⊢
  cases hout with
  | nothing =>
    rw [State.andThen_running _ (by exact hh.running)]
    exact (decoded_undecoded hc hh hf hstall hbubble).fetchStep s.stall
  | passedOn e _ _ hlf =>
    obtain ⟨hclean, -⟩ := State.clean_iff.1 hh.clean
    rw [hlf] at hclean; cases hclean
  | raised p code =>
    rw [State.andThen_halted _ (State.raise_status ..)]
    exact inv_raise hc hh hf (hstall.trans hbubble.symm) code p.fpc (.inr (.inl rfl))
      fun hs => by rw [hstall] at hs; cases hs
  | issued p q _ _ _ _ hq =>
    rw [State.andThen_running _ (by exact hh.running)]
    exact (decoded_issued hc hh hf hq).fetchStep s.stall

/-- Settles O50: the older stages keep a healthy core or halt it in Memory-access; in the first case Decode and Fetch
complete the invariant. -/
theorem stepKeepsTheInvariant : Obligations.StepKeepsTheInvariant := by
  intro s t hinv hstep
  obtain ⟨hr, -, d, -, hdec, rfl⟩ := step_next_decodes hstep
  rcases hinv.olderStages_cases hr with ⟨hh, hc⟩ | ⟨p, -, hh, hc, e⟩
  · exact inv_front hdec hc hh
  · rw [cycle_of_halted (by rw [e, State.raise_status]), e]
    refine inv_raise hc hh ?_ ?_ _ _ (.inr (.inr rfl)) ?_ <;> simp

/-! ## Reset -/

theorem inv_new {par : Config.Params} {image : Memory} (hpar : par.Wf) (himage : image.Within par) :
    Inv (State.new par image) := by
  obtain ⟨hwf, hregion⟩ := himage
  exact
    { par := hpar, mem := hwf, region := hregion, lf := trivial, ld := trivial, le := trivial, lm := trivial
      hazards := rfl, stalled := fun hs => by simp at hs, pending := fun _ p hp => by simp at hp
      flushed := fun hf => by simp at hf, running := fun _ => rfl, halted := fun e he => by simp at he }

/-- Settles O45: no latch holds anything after reset; the arguments of `State.reset` are those of R6. -/
theorem resetMeetsTheInvariant : Obligations.ResetMeetsTheInvariant :=
  ⟨fun _ _ hpar himage => inv_new hpar himage, inv_new (by decide) ⟨rfl, nofun⟩⟩

end Sys2Proof.Machine
end

section
/-! PROOFS. The core between and over cycles (40_pipeline.md R134 to R138, 20_memory.md R67, R68): when the clock is
refused, what `new` makes, what any number of cycles leaves, and `run`. -/

namespace Sys2Proof.Machine

/-! ## The refusals -/

theorem exec_of_halted {s : State} {e : ErrorRecord} (h : s.status = .halted e) (i : Instr) :
    exec i s = .fault (.halted e) := by
  rw [exec_eq_clockCycle, clockCycle_halted _ h]

theorem step_of_halted {s : State} {e : ErrorRecord} (h : s.status = .halted e) : step s = .fault (.halted e) := by
  obtain ⟨d, -, hs⟩ := step_eq_clockCycle s
  rw [hs, clockCycle_halted d h]

/-- A step that answers a next state was made by a running core. -/
theorem running_of_step {s t : State} (h : step s = .next t) : s.status = .running := by
  obtain ⟨hr, -⟩ := step_next h
  exact hr

/-- Settles O40: the status is looked at before anything else. -/
theorem haltedRefusesTheClock : Obligations.HaltedRefusesTheClock :=
  fun _ _ h => ⟨step_of_halted h, exec_of_halted h⟩

theorem exitCode_of_halted {s : State} {e : ErrorRecord} (h : s.status = .halted e) :
    s.exitCode = some e.code.exitCode := by
  simp [State.exitCode, h]

theorem exitCode_of_running {s : State} (h : s.status = .running) : s.exitCode = none := by
  simp [State.exitCode, h]

/-- Settles O41: by the error's tag. -/
theorem exitCodes : Obligations.ExitCodes := by
  intro s e h
  rw [exitCode_of_halted h]
  cases e.code <;> rfl

/-- The three ways in which arguments are not those of R6. -/
theorem not_wf_of_bad_arguments {par : Config.Params}
    (h : par.ub < par.lb ∨ 2 ^ 31 < par.ub ∨ ¬Config.OpcodeMapWf par.opcodeMap) : ¬par.Wf := by
  rintro ⟨hlb, hub, hmap⟩
  rcases h with h | h | h
  · exact Nat.not_le.2 h hlb
  · exact Nat.not_le.2 h hub
  · exact h hmap

/-- Settles O48: a running core's arguments are looked at before the cycle. -/
theorem unsupportedArgumentsAreRefused : Obligations.UnsupportedArgumentsAreRefused := by
  intro s hr hbad
  have hp := not_wf_of_bad_arguments hbad
  obtain ⟨d, -, hs⟩ := step_eq_clockCycle s
  exact ⟨by rw [hs, clockCycle_refused d hr hp], fun i => by rw [exec_eq_clockCycle, clockCycle_refused _ hr hp]⟩

/-! ## What `new` makes -/

theorem newProcessor_eq_ok {par : Config.Params} {handle : Option Memory} {s : State}
    (h : newProcessor par handle = .ok s) :
    ∃ image, handle = some image ∧ par.Wf ∧ image.Within par ∧ s = State.new par image := by
  rcases newProcessor_cases par handle with ⟨-, e⟩ | ⟨image, hi, hp, hw, e⟩ | ⟨image, -, -, e⟩
  · rw [e] at h; cases h
  · rw [e] at h; exact ⟨image, hi, hp, hw, (Except.ok.inj h).symm⟩
  · rw [e] at h; cases h

theorem newProcessor_accepts {par : Config.Params} {image : Memory} (hp : par.Wf) (hw : image.Within par) :
    newProcessor par (some image) = .ok (State.new par image) := if_pos ⟨hp, hw⟩

/-- Settles O46: `new` accepts exactly the arguments and contents of R6 and R50, over which reset meets the
invariant. -/
theorem newProcessorOrRefusal : Obligations.NewProcessorOrRefusal := by
  intro par
  refine ⟨rfl, fun image => ⟨fun hbad => if_neg ?_, newProcessor_accepts, fun s hs => ?_⟩⟩
  · rintro ⟨hp, hw⟩
    rcases hbad with h | h | h | h
    · exact not_wf_of_bad_arguments (.inl h) hp
    · exact not_wf_of_bad_arguments (.inr (.inl h)) hp
    · exact not_wf_of_bad_arguments (.inr (.inr h)) hp
    · exact h hw
  · obtain ⟨image', himage, hp, hw, rfl⟩ := newProcessor_eq_ok hs
    obtain rfl := Option.some.inj himage
    exact ⟨inv_new hp hw, rfl, rfl, rfl, rfl⟩

/-! ## Contents with any byte at any address -/

/-- The `n` bytes from `a` on, each given its value. -/
def Memory.filled (bytes : Nat → Byte) (a n : Nat) : Memory := (List.range' a n).map fun x => (x, bytes x)

theorem Memory.mem_filled {bytes : Nat → Byte} {a n : Nat} {c : Host.Cell} (h : c ∈ Memory.filled bytes a n) :
    a ≤ c.1 ∧ c.1 < a + n := by
  obtain ⟨x, hx, rfl⟩ := List.mem_map.1 h
  exact List.mem_range'_1.1 hx

theorem Memory.filled_succ (bytes : Nat → Byte) (a n : Nat) :
    Memory.filled bytes a (n + 1) = (a, bytes a) :: Memory.filled bytes (a + 1) n := by
  simp [Memory.filled, List.range'_succ]

theorem Memory.filled_wf (bytes : Nat → Byte) (a n : Nat) : (Memory.filled bytes a n).wf = true := by
  induction n generalizing a with
  | zero => rfl
  | succ n ih =>
    rw [Memory.filled_succ, Memory.wf_cons]
    exact ⟨fun c hc => (Memory.mem_filled hc).1, ih (a + 1)⟩

theorem Memory.given_filled (bytes : Nat → Byte) {a n x : Nat} (hlo : a ≤ x) (hhi : x < a + n) :
    (Memory.filled bytes a n).given x = some (bytes x) := by
  induction n generalizing a with
  | zero => omega
  | succ n ih =>
    rw [Memory.filled_succ, Memory.given]
    by_cases hx : x = a
    · rw [if_pos hx, hx]
    · rw [if_neg hx]
      exact ih (by omega) (by omega)

/-- Settles O47: the whole region is filled. -/
theorem anyContentsCanBeGiven : Obligations.AnyContentsCanBeGiven := by
  intro par bytes hp
  have hle : par.lb ≤ par.ub := hp.1
  refine ⟨Memory.filled bytes par.lb (par.ub - par.lb), newProcessor_accepts hp ⟨Memory.filled_wf .., fun c hc => ?_⟩,
    fun a hlo hhi => Memory.byteAt_of_given (Memory.given_filled bytes hlo (by omega))⟩
  obtain ⟨hlo, hhi⟩ := Memory.mem_filled hc
  exact ⟨hlo, by omega⟩

/-! ## Any number of cycles -/

theorem State.after_succ_of_next {s t : State} (h : step s = .next t) (n : Nat) : s.after (n + 1) = t.after n := by
  rw [State.after, h]

theorem State.after_succ_of_not_next {s : State} (h : ∀ t, step s ≠ .next t) (n : Nat) : s.after (n + 1) = none := by
  rw [State.after]
  split
  · exact absurd ‹_› (h _)
  · rfl

/-- What a step keeps, any number of steps keep. -/
theorem State.after_keeps {P : State → Prop} (hP : ∀ s t, P s → step s = .next t → P t) {n : Nat} {s t : State}
    (hs : P s) (h : s.after n = some t) : P t := by
  induction n generalizing s with
  | zero => exact Option.some.inj h ▸ hs
  | succ n ih =>
    by_cases hn : ∃ u, step s = .next u
    · obtain ⟨u, hu⟩ := hn
      exact ih (hP s u hs hu) (State.after_succ_of_next hu n ▸ h)
    · rw [State.after_succ_of_not_next (not_exists.1 hn)] at h; cases h

/-- Settles O51: one step keeps the arguments (`step_par`). -/
theorem argumentsNeverChange : Obligations.ArgumentsNeverChange :=
  fun s _ _ h => State.after_keeps (P := fun u => u.par = s.par) (fun _ _ hu hstep => (step_par hstep).trans hu) rfl h

/-- Settles O49: the arguments that `new` accepts stay, and with them a running core has a next state. -/
theorem newProcessorIsNeverRefused : Obligations.NewProcessorIsNeverRefused := by
  intro par handle s t n hnew hafter
  obtain ⟨image, -, hp, -, rfl⟩ := newProcessor_eq_ok hnew
  have hpar : t.par = par := argumentsNeverChange _ _ _ hafter
  refine ⟨fun hr => ?_, fun e he => step_of_halted he⟩
  obtain ⟨d, -, hs⟩ := step_running hr (hpar ▸ hp)
  exact ⟨_, hs⟩

/-! ## `run` -/

theorem run_of_halted {s : State} {e : ErrorRecord} (h : s.status = .halted e) (n : Nat) :
    run n s = some e.code.exitCode := by
  cases n with
  | zero => exact exitCode_of_halted h
  | succ n => simp [run, exitCode_of_halted h]

theorem run_succ_of_next {s t : State} (h : step s = .next t) (n : Nat) : run (n + 1) s = run n t := by
  simp [run, exitCode_of_running (running_of_step h), h]

theorem run_of_not_next {s : State} (hr : s.status = .running) (h : ∀ t, step s ≠ .next t) (n : Nat) :
    run n s = none := by
  cases n with
  | zero => exact exitCode_of_running hr
  | succ n =>
    cases hs : step s with
    | next t => exact absurd hs (h t)
    | fault r => simp [run, exitCode_of_running hr, hs]
    | refused r => simp [run, exitCode_of_running hr, hs]

/-- Within `n` cycles the core has halted with an error of code `c`. -/
def HaltsWithin (n : Nat) (s : State) (c : Int) : Prop :=
  ∃ k t e, k ≤ n ∧ s.after k = some t ∧ t.status = .halted e ∧ e.code.exitCode = c

/-- A halted core has only the state it is in. -/
theorem State.after_of_halted {s t : State} {e : ErrorRecord} (h : s.status = .halted e) {k : Nat}
    (hk : s.after k = some t) : t = s := by
  cases k with
  | zero => exact (Option.some.inj hk).symm
  | succ k =>
    rw [State.after_succ_of_not_next (fun u hu => by rw [step_of_halted h] at hu; cases hu)] at hk
    cases hk

theorem haltsWithin_of_halted {s : State} {e : ErrorRecord} (h : s.status = .halted e) (n : Nat) (c : Int) :
    HaltsWithin n s c ↔ e.code.exitCode = c := by
  constructor
  · rintro ⟨k, t, e', -, hafter, ht, hc⟩
    rw [State.after_of_halted h hafter, h] at ht
    rw [Status.halted.inj ht, hc]
  · exact fun hc => ⟨0, s, e, Nat.zero_le n, rfl, h, hc⟩

/-- A running core takes a cycle to halt. -/
theorem haltsWithin_of_running {s : State} (h : s.status = .running) {n : Nat} {c : Int} (hh : HaltsWithin n s c) :
    ∃ m t, n = m + 1 ∧ step s = .next t ∧ HaltsWithin m t c := by
  obtain ⟨k, t, e, hk, hafter, ht, hc⟩ := hh
  cases k with
  | zero =>
    obtain rfl := Option.some.inj hafter
    rw [h] at ht; cases ht
  | succ k =>
    by_cases hn : ∃ u, step s = .next u
    · obtain ⟨u, hu⟩ := hn
      obtain ⟨m, rfl⟩ := Nat.exists_eq_add_one.2 (Nat.zero_lt_of_lt hk)
      exact ⟨m, u, rfl, hu, k, t, e, Nat.le_of_succ_le_succ hk, (State.after_succ_of_next hu k).symm.trans hafter,
        ht, hc⟩
    · rw [State.after_succ_of_not_next (not_exists.1 hn)] at hafter; cases hafter

theorem HaltsWithin.succ {s t : State} {n : Nat} {c : Int} (hstep : step s = .next t) (h : HaltsWithin n t c) :
    HaltsWithin (n + 1) s c := by
  obtain ⟨k, u, e, hk, hafter, hu⟩ := h
  exact ⟨k + 1, u, e, Nat.succ_le_succ hk, (State.after_succ_of_next hstep k).trans hafter, hu⟩

/-- Settles O42: by induction on the fuel; a halted core answers at once, a running one as its next state does. -/
theorem runReturnsTheErrorsCode : Obligations.RunReturnsTheErrorsCode := by
  intro n s c
  show run n s = some c ↔ HaltsWithin n s c
  induction n generalizing s with
  | zero =>
    cases hst : s.status with
    | halted e => rw [run_of_halted hst, haltsWithin_of_halted hst, Option.some.injEq]
    | running =>
      refine iff_of_false (by simp [run, exitCode_of_running hst]) fun h => ?_
      obtain ⟨m, -, hm, -⟩ := haltsWithin_of_running hst h
      cases hm
  | succ n ih =>
    cases hst : s.status with
    | halted e => rw [run_of_halted hst, haltsWithin_of_halted hst, Option.some.injEq]
    | running =>
      by_cases hn : ∃ u, step s = .next u
      · obtain ⟨u, hu⟩ := hn
        rw [run_succ_of_next hu, ih u]
        refine ⟨HaltsWithin.succ hu, fun h => ?_⟩
        obtain ⟨m, t, hm, ht, hh⟩ := haltsWithin_of_running hst h
        obtain rfl := Nat.succ.inj hm
        obtain rfl := Host.Outcome.next.inj (hu.symm.trans ht)
        exact hh
      · rw [run_of_not_next hst (not_exists.1 hn)]
        refine iff_of_false nofun fun h => ?_
        obtain ⟨-, t, -, ht, -⟩ := haltsWithin_of_running hst h
        exact hn ⟨t, ht⟩

end Sys2Proof.Machine
end

section
/-! PROOFS. One cycle in any pipeline: the instruction at Decode, the Fetch after it, and the errors of each stage
(40_pipeline.md R110 to R134). -/

namespace Sys2Proof.Machine

/-! ## The instruction at Decode -/

/-- Settles O6: `step_of_decodeWord`. -/
theorem stepRunsTheDecodedInstruction : Obligations.StepRunsTheDecodedInstruction :=
  fun _ _ _ _ hlf hd => step_of_decodeWord hlf hd

/-- `t` is the running core after a cycle of `s` in which Decode handed `p` on and Fetch raised nothing. -/
structure Issues (s t : State) (p : DPayload) : Prop where
  running : t.status = .running
  front : FrontOnly t (olderStages s)
  ld : t.ld = .full p
  stall : t.stall = decide (p.op = .cmp)
  bubble : t.bubbleNext = decide (p.op = .cmp)
  pc : s.stall = false → t.pc = (olderStages s).pc + 4
  lf : s.stall = false →
    t.lf = .full { word := (olderStages s).mem.readWord (olderStages s).pc.toInt.toNat, fpc := (olderStages s).pc }

/-- The cycle of a ready instruction raises nothing: the instruction is handed on. -/
theorem Ready.exec_wf {s : State} {w fpc : Word} {i : Instr} (h : Ready s w fpc) (hi : i.wf = true) :
    ∃ a b sd t, readOperand (olderStages s) (normSrc1 i) fpc = some a ∧
      readSource2 (olderStages s) i.src2 fpc = some b ∧ readOperand (olderStages s) (normDest i) fpc = some sd ∧ exec i s = .next t ∧
      Issues s t (latchOf i a b sd fpc) := by
  obtain ⟨a, b, sd, ha, hb, hsd, hexec⟩ := h.toAtDecode.exec_wf hi
  have hflush : ((olderStages s).issued (latchOf i a b sd fpc)).flush = false := h.noFlush
  have hfetched (hstall : s.stall = false) : fetchStep s.stall ((olderStages s).issued (latchOf i a b sd fpc)) =
      ((olderStages s).issued (latchOf i a b sd fpc)).fetched := by
    rw [hstall]
    exact fetchStep_of_inBounds hflush (by simpa [hstall] using h.fetch)
  refine ⟨a, b, sd, _, ha, hb, hsd, hexec,
    { running := ?_, front := exec_frontOnly hexec, ld := by simp, stall := by simp, bubble := by simp
      pc := fun hstall => by rw [hfetched hstall]; rfl
      lf := fun hstall => by rw [hfetched hstall]; rfl }⟩
  rcases Bool.eq_false_or_eq_true s.stall with hstall | hstall
  · rw [hstall, fetchStep_of_stall hflush]
    exact h.older
  · rw [hfetched hstall]
    exact h.older

/-- Settles O7: Fetch follows a Decode without error (`Ready.exec_wf`); the word is the big-endian read of R52. -/
theorem cycleFetchesTheWordAtPc : Obligations.CycleFetchesTheWordAtPc := by
  intro s i w fpc h hstall hi
  obtain ⟨a, b, sd, t, -, -, -, hexec, ht⟩ := h.exec_wf hi
  exact ⟨t, hexec, ht.pc hstall, ht.lf hstall⟩

/-- Settles O10: `Ready.exec_wf`. -/
theorem everyInstructionIssuesItsLatch : Obligations.EveryInstructionIssuesItsLatch := by
  intro i s w fpc h hi
  obtain ⟨a, b, sd, t, ha, hb, hsd, hexec, ht⟩ := h.exec_wf hi
  exact ⟨t, a, b, sd, hexec, ht.running, ha, hb, hsd, ht.ld, ht.stall, ht.bubble, ht.front.flush.trans h.noFlush,
    ht.front.sameData, ht.front.le, ht.front.lm, ht.front.lw⟩

/-- What Fetch makes of a cycle: nothing in one that halts; else the empty latch of a flush, the latch kept by a stall,
or the word at the PC that the older stages leave. -/
theorem cycle_fetch_cases {d : Word → State → State} (hd : DecodesOnly d) (s : State) :
    ((∃ e, (cycle d s).status = .halted e) ∧ (cycle d s).pc = (olderStages s).pc) ∨
    ((olderStages s).flush = true ∧ (cycle d s).lf = .empty ∧ (cycle d s).pc = (olderStages s).pc) ∨
    ((olderStages s).flush = false ∧ s.stall = true ∧ (cycle d s).lf = s.lf ∧ (cycle d s).pc = (olderStages s).pc) ∨
    ((olderStages s).flush = false ∧ s.stall = false ∧ (cycle d s).pc = (olderStages s).pc + 4 ∧
      (cycle d s).lf =
        .full { word := (olderStages s).mem.readWord (olderStages s).pc.toInt.toNat, fpc := (olderStages s).pc }) := by
  let v := (olderStages s).andThen (decodeStep s.bubbleNext d)
  have hpc : v.pc = (olderStages s).pc := State.andThen_keeps State.pc _ _ (decodeStep_pc hd _ _)
  have hlf : v.lf = s.lf := (State.andThen_keeps State.lf _ _ (decodeStep_lf hd _ _)).trans (olderStages_lf s)
  have hflush : v.flush = (olderStages s).flush := State.andThen_keeps State.flush _ _ (decodeStep_flush hd _ _)
  have hmem : v.mem = (olderStages s).mem := State.andThen_keeps State.mem _ _ (decodeStep_mem hd _ _)
  have hcycle : cycle d s = v.andThen (fetchStep s.stall) := rfl
  rw [hcycle, ← hpc, ← hlf, ← hflush, ← hmem]
  rcases State.andThen_cases v (fetchStep s.stall) with ⟨-, e⟩ | ⟨err, herr, e⟩
  · rw [e]
    rcases fetchStep_cases s.stall v with ⟨hf, e'⟩ | ⟨hf, hstall, e'⟩ | ⟨hf, hstall, -, e'⟩ | ⟨-, -, -, e'⟩ <;> rw [e']
    · exact .inr (.inl ⟨hf, rfl, rfl⟩)
    · exact .inr (.inr (.inl ⟨hf, hstall, rfl, rfl⟩))
    · exact .inr (.inr (.inr ⟨hf, hstall, rfl, rfl⟩))
    · exact .inl ⟨⟨_, State.raise_status ..⟩, rfl⟩
  · rw [e]
    exact .inl ⟨⟨err, herr⟩, rfl⟩

/-- Settles O11: Decode writes its slot, two requests and the status, Fetch its slot, PC and the status. -/
theorem decodeWritesNothing : Obligations.DecodeWritesNothing := by
  intro i s t h
  have hfront := exec_frontOnly h
  obtain ⟨-, -, rfl⟩ := exec_next h
  refine ⟨hfront.sameData, hfront.le, hfront.lm, hfront.lw, hfront.par.trans (olderStages_par s), ?_⟩
  rcases cycle_fetch_cases (issue_decodesOnly _) s with ⟨-, hpc⟩ | ⟨-, -, hpc⟩ | ⟨-, -, -, hpc⟩ | ⟨-, -, hpc, -⟩
  · exact .inl hpc
  · exact .inl hpc
  · exact .inl hpc
  · exact .inr hpc

/-! ## Errors of Decode, Fetch and Memory-access -/

/-- A word that is no instruction, where Decode acts on it: the error of the failed check, and no Fetch. -/
theorem AtDecode.step_of_error {s : State} {w fpc : Word} {err : DecodeError} (h : AtDecode s w fpc)
    (herr : decodeWord s.par.opcodeMap w = .error err) :
    step s = .next ((olderStages s).raise (decodeFaultCode err) .decode fpc) := by
  have hstep : step s = clockCycle (decodeFails err) s := by simp [step, h.lf, herr, clockInvalid]
  rw [hstep, clockCycle_running _ h.running h.par, h.cycle]
  exact congrArg Host.Outcome.next (State.andThen_halted _ (State.raise_status ..))

/-- A valid opcode with a register field outside 0..9 is refused with one of the three errors of that kind. -/
theorem decodeWord_bad_register {map : List Mnemonic} {w : Word} (hmap : Config.OpcodeMapWf map)
    (hop : (fieldOp w).toNat < 12)
    (hbad : 10 ≤ (fieldRd w).toNat ∨ 10 ≤ (fieldRs1 w).toNat ∨
      (fieldImm w = 0 ∧ ((fieldSrc2 w).toInt < 0 ∨ 9 < (fieldSrc2 w).toInt))) :
    ∃ err, decodeWord map w = .error err ∧ decodeFaultCode err = .invalidReg := by
  obtain ⟨-, hrd, hrs1, hsrc2, -⟩ := decodeChecksInOrder map w hmap
  by_cases h1 : 10 ≤ (fieldRd w).toNat
  · exact ⟨_, hrd hop h1, rfl⟩
  by_cases h2 : 10 ≤ (fieldRs1 w).toNat
  · exact ⟨_, hrs1 hop (Nat.not_le.1 h1) h2, rfl⟩
  obtain ⟨himm, hrange⟩ := (hbad.resolve_left h1).resolve_left h2
  exact ⟨_, hsrc2 hop (Nat.not_le.1 h1) (Nat.not_le.1 h2) himm hrange, rfl⟩

/-- Settles O36: the failed check by the order of Decode's checks (O4), the state it leaves by
`AtDecode.step_of_error`. -/
theorem invalidWordHaltsAtDecode : Obligations.InvalidWordHaltsAtDecode := by
  intro s w fpc h halt
  constructor
  · intro hop
    exact h.step_of_error (decodeWord_of_opcode hop)
  · intro hop hbad
    obtain ⟨-, -, hmap⟩ := h.par
    obtain ⟨err, herr, hcode⟩ := decodeWord_bad_register hmap hop hbad
    rw [h.step_of_error herr, hcode]
    rfl

/-- Settles O37: the access is not allowed, so the older stages end there and the cycle with them. -/
theorem memoryFaultHaltsBeforeYoungerStages : Obligations.MemoryFaultHaltsBeforeYoungerStages := by
  intro s p hr hp hwb hle hacc hout
  obtain ⟨d, -, hs⟩ := step_running hr hp
  have holder := olderStages_of_not_allowed hwb hle (EPayload.not_allowed hacc hout)
  rw [hs, cycle_of_halted (by rw [holder, State.raise_status]), holder]
  rfl

/-- Settles O38: Decode's hand-over is done, then Fetch raises. -/
theorem fetchFaultLeavesPc : Obligations.FetchFaultLeavesPc := by
  intro s i w fpc h hstall hi hout e
  obtain ⟨a, b, sd, -, -, -, hexec⟩ := h.exec_wf hi
  have hdata := (exec_frontOnly hexec).sameData
  rw [hstall, fetchStep_of_outOfBounds (by simpa using h.noFlush)
    (by simpa [inBounds_eq_false_iff] using hout)] at hexec hdata
  exact ⟨_, hexec, rfl, rfl, rfl, ⟨_, rfl, rfl, rfl⟩, hdata⟩

/-! ## Redirects, flushes and bubbles -/

/-- Settles O23: the branch in the Decode latch is the one way to a flush (`olderStages_redirect`), and the flush cycle
neither decodes nor fetches. -/
theorem takenBranchFlushes : Obligations.TakenBranchFlushes := by
  intro s p hr hp hld hb holder htaken
  obtain ⟨d, hd, hs⟩ := step_running hr hp
  rcases olderStages_redirect holder with ⟨q, hq, -, -, hflush, hpc⟩ | ⟨hno, -⟩
  · obtain rfl : p = q := Latch.full.inj (hld.symm.trans hq)
    have hdata := (cycle_frontOnly hd s).sameData
    rw [cycle_of_flush d holder hflush] at hs hdata
    exact ⟨_, hs, holder, hpc, hflush, rfl, rfl, olderStages_stall s, olderStages_bubbleNext s,
      olderStages_le_of_full holder hld, hdata⟩
  · rcases hno p hld with hno | hno <;> simp_all

/-- Settles O24: a flush empties the Fetch latch, a bubble stalls with it (`Inv.hazards`); neither cycle decodes. -/
theorem undecodedWordRaisesNothing : Obligations.UndecodedWordRaisesNothing := by
  intro s hinv hr holder hcase
  obtain ⟨d, hd, hs⟩ := step_running hr hinv.par
  by_cases hflush : (olderStages s).flush = true
  · rw [cycle_of_flush d holder hflush] at hs
    exact ⟨_, hs, holder, rfl, (if_pos hflush).symm, rfl⟩
  · have hbubble : s.bubbleNext = true := hcase.resolve_left hflush
    have hstall : s.stall = true := hinv.hazards.trans hbubble
    have hflush' : (olderStages s).flush = false := Bool.eq_false_iff.2 hflush
    rw [cycle_of_bubble d holder hflush' hbubble, hstall, fetchStep_of_stall (by exact hflush')] at hs
    exact ⟨_, hs, holder, rfl, by simp [hflush'], rfl⟩

/-- Settles O25: Write-back leaves its value in PC, no branch is taken (`AtDecode.noFlush`), and Fetch reads there. -/
theorem writeBackToPcFlushesNothing : Obligations.WriteBackToPcFlushesNothing := by
  intro s p v w fpc i h hi hstall hlm hw hrd hv
  obtain ⟨u, hu, hwb⟩ := writeBackStep_of_value hlm hw hv (hrd ▸ by decide)
  have hpc : (olderStages s).pc = trunc32 v := by
    rcases olderStages_redirect h.older with ⟨-, -, -, -, hflush, -⟩ | ⟨-, -, e⟩
    · rw [h.noFlush] at hflush; cases hflush
    · rw [e, hwb]
      exact hu.pc.trans (if_pos hrd)
  obtain ⟨a, b, sd, t, -, -, -, hexec, ht⟩ := h.exec_wf hi
  have htpc := ht.pc hstall
  have hlf := ht.lf hstall
  rw [hpc] at htpc hlf
  refine ⟨t, hexec, ht.running, ht.front.flush.trans h.noFlush, by rw [hlf, ht.front.mem], htpc, ⟨_, ht.ld, rfl⟩,
    fun d hd => ?_, fun x hx => ?_⟩
  · exact ⟨_, ht.front.le.trans (olderStages_le_of_full h.older hd), rfl⟩
  · exact ⟨_, ht.front.lm.trans (olderStages_lm_of_full (olderStages_writeBack_running h.older) hx
      (olderStages_allowed h.older hx)), rfl⟩

/-- Settles O27: Memory-access has stored the word before Fetch reads it (`Memory.readWord_writeWord`). -/
theorem fetchSeesTheStoreOfItsCycle : Obligations.FetchSeesTheStoreOfItsCycle := by
  intro s p w fpc i h hstall hi hle hctl haddr
  obtain ⟨a, b, sd, t, -, -, -, hexec, ht⟩ := h.exec_wf hi
  have hmem : (olderStages s).mem = s.mem.writeWord (olderStages s).pc.toInt.toNat (trunc32 p.sd) := by
    rw [olderStages_mem_of_full (olderStages_writeBack_running h.older) hle (olderStages_allowed h.older hle),
      EPayload.stored_of_write (by rw [hctl]; rfl), haddr]
  have hlf := ht.lf hstall
  rw [hmem, Memory.readWord_writeWord] at hlf
  exact ⟨t, hexec, ht.running, hlf, _, ht.ld, rfl, rfl⟩

/-! ## Reset and the placed word -/

/-- Settles O44: nothing is in the latches after reset, so the older stages do nothing and Fetch reads at PC. -/
theorem firstCycleFetchesAtReset : Obligations.FirstCycleFetchesAtReset := by
  intro par image hp hin hin4
  obtain ⟨d, hd, hs⟩ := step_running (s := State.new par image) rfl hp
  have holder : olderStages (State.new par image) = State.new par image := rfl
  have hcycle : cycle d (State.new par image) = (State.new par image).undecoded.fetched := by
    rw [cycle_of_lf_empty d (holder ▸ rfl) (holder ▸ rfl) rfl rfl, holder]
    exact fetchStep_of_inBounds rfl hin
  have hdata := (cycle_frontOnly hd (State.new par image)).sameData
  rw [holder] at hdata
  rw [hcycle] at hs hdata
  exact ⟨_, hs,
    { par := hp, running := rfl, lf := rfl, ld := rfl, le := rfl, lm := rfl, stall := rfl, bubble := rfl
      fetch := hin4 },
    hdata, rfl⟩

/-- Settles O56: the placed word is the one in the Fetch latch, and nothing else is in the pipeline. -/
theorem placedWordRunsNext : Obligations.PlacedWordRunsNext := by
  intro s nbits w i hd
  refine ⟨step_of_decodeWord (w := BitVec.ofNat 32 (w % 2 ^ nbits)) (fpc := s.pc) rfl hd, fun hr hp hin => ?_⟩
  exact
    { par := hp, running := hr, lf := rfl, ld := rfl, le := rfl, lm := rfl, stall := rfl, bubble := rfl, fetch := hin }

end Sys2Proof.Machine
end

section
/-! PROOFS. What a step can change (10_state.md R21 to R26, 20_memory.md R57), the three kinds of cycle
(70_reset_and_hazards.md R233), and the ways a cycle can halt (40_pipeline.md R132, R133). -/

namespace Sys2Proof.Machine

/-! ## What changes what -/

/-- Settles O29: the one write to the registers and FLAG is Write-back's (`writeBackStep_data_cases`). -/
theorem registersChangeOnlyByWriteBack : Obligations.RegistersChangeOnlyByWriteBack := by
  intro s t h
  have hfront := step_frontOnly h
  simp only [hfront.regs, hfront.flag, olderStages_regs, olderStages_flag]
  rcases writeBackStep_data_cases s.clearHazards with ⟨hregs, -, hflag⟩ | ⟨p, v, u, hlm, hw, hv, hu, hregs, -, hflag⟩
  · rw [hflag]
    exact ⟨fun k hk hne => absurd (by simp [hregs]) hne, fun hne => absurd rfl hne⟩
  · constructor
    · intro k hk hne
      have hval := hu.regs k hk
      simp only [hregs] at hne ⊢
      by_cases hrd : k = p.rd
      · exact ⟨p, v, hlm, hw, hrd.symm, hv, hval.trans (if_pos hrd)⟩
      · exact absurd (hval.trans (if_neg hrd)) hne
    · intro hne
      have hval := hu.flag
      rw [hflag] at hne ⊢
      by_cases hrd : p.rd = 9
      · exact ⟨p, v, hlm, hw, hrd, hv, hval.trans (if_pos hrd)⟩
      · exact absurd (hval.trans (if_neg hrd)) hne

/-- PC after the older stages: as Write-back leaves it, or the target of a taken branch. -/
theorem olderStages_pc_cases (s : State) :
    (olderStages s).pc = (writeBackStep s.clearHazards).pc ∨
    (∃ p, s.ld = .full p ∧ p.ctl.branch = true ∧ (olderStages s).flush = true ∧
      (olderStages s).pc = trunc32 (alu p.ctl.aluOp p.a p.b)) := by
  let v := (writeBackStep s.clearHazards).andThen memAccessStep
  have hpc : v.pc = (writeBackStep s.clearHazards).pc := State.andThen_keeps State.pc _ _ (memAccessStep_pc _)
  rw [← hpc, show olderStages s = v.andThen executeStep from rfl]
  rcases State.andThen_cases v executeStep with ⟨-, e⟩ | ⟨_, -, e⟩
  · have hld : v.ld = s.ld := by
      rw [State.andThen_keeps State.ld _ _ (memAccessStep_ld _)]; simp
    rw [e, ← hld]
    cases hld' : v.ld with
    | empty => rw [executeStep_of_empty hld']; exact .inl rfl
    | fault err => rw [executeStep_of_fault hld']; exact .inl rfl
    | full p =>
      rw [executeStep_of_full hld']
      rcases execute_cases v p with ⟨hb, -, e'⟩ | ⟨-, e'⟩ <;> rw [e']
      · exact .inr ⟨p, rfl, hb, rfl, rfl⟩
      · exact .inl rfl
  · rw [e]; exact .inl rfl

/-- Settles O30: PC is moved by a Fetch that succeeds (`cycle_fetch_cases`), by Execute (`olderStages_pc_cases`) or by
Write-back (`writeBackStep_data_cases`). -/
theorem pcChangesInThreeWays : Obligations.PcChangesInThreeWays := by
  intro s t h hne
  have hflush := (step_frontOnly h).flush
  obtain ⟨-, -, d, hd, rfl⟩ := step_next h
  have older (hpc : (cycle d s).pc = (olderStages s).pc) :
      (∃ p, s.ld = .full p ∧ p.ctl.branch = true ∧ (cycle d s).flush = true ∧
        (cycle d s).pc = trunc32 (alu p.ctl.aluOp p.a p.b)) ∨
      (∃ p v, s.lm = .full p ∧ p.ctl.regWrite = true ∧ p.rd = 8 ∧ writeBackValue p = some v ∧
        (cycle d s).pc = trunc32 v) := by
    rw [hpc] at hne ⊢
    rw [hflush]
    rcases olderStages_pc_cases s with hwb | hbranch
    · rw [hwb] at hne ⊢
      rcases writeBackStep_data_cases s.clearHazards with ⟨-, e, -⟩ | ⟨p, v, u, hlm, hw, hv, hu, -, e, -⟩
      · exact absurd e hne
      · have hval := hu.pc
        rw [e] at hne ⊢
        by_cases hrd : p.rd = 8
        · exact .inr ⟨p, v, hlm, hw, hrd, hv, hval.trans (if_pos hrd)⟩
        · exact absurd (hval.trans (if_neg hrd)) hne
    · exact .inl hbranch
  rcases cycle_fetch_cases hd s with ⟨-, hpc⟩ | ⟨-, -, hpc⟩ | ⟨-, -, -, hpc⟩ | ⟨hf, hstall, hpc, hlf⟩
  · exact .inr (older hpc)
  · exact .inr (older hpc)
  · exact .inr (older hpc)
  · exact .inl ⟨_, _, hlf, hpc, hflush.trans hf, hstall⟩

/-- Settles O31: the one write to memory is an allowed store in Memory-access (`olderStages_mem_cases`). -/
theorem memoryChangesOnlyByStore : Obligations.MemoryChangesOnlyByStore := by
  intro s t x h hne
  rw [(step_frontOnly h).mem] at hne ⊢
  rcases olderStages_mem_cases s with e | ⟨p, hle, hw, hp, e⟩
  · rw [e] at hne; exact absurd rfl hne
  · rw [e, EPayload.stored_of_write hw, Memory.byteAt_writeWord] at hne ⊢
    by_cases hx : p.res.toInt.toNat ≤ x ∧ x < p.res.toInt.toNat + 4
    · exact ⟨p, x - p.res.toInt.toNat, hle, hw, hp (.inr hw), by omega, by omega, if_pos hx⟩
    · rw [if_neg hx] at hne; exact absurd rfl hne

/-! ## The kinds of cycle -/

/-- A CMP in the Decode latch is no branch. -/
theorem Inv.not_branch_of_stall {s : State} (h : Inv s) (hstall : s.stall = true) {p : DPayload}
    (hld : s.ld = .full p) : p.ctl.branch = false := by
  obtain ⟨q, hq, hop⟩ := h.stalled hstall
  obtain rfl : p = q := Latch.full.inj (hld.symm.trans hq)
  have hcarried := h.ld
  rw [hld] at hcarried
  rw [hcarried.ctl_eq, hop]
  rfl

/-- Settles O28: the three ends of a cycle that does not halt (`cycle_fetch_cases`); a stall and a flush exclude each
other since the one needs a CMP and the other a branch in the Decode latch. -/
theorem eachCycleFetchesStallsOrFlushes : Obligations.EachCycleFetchesStallsOrFlushes := by
  intro s t hinv h hrun
  have hfront := step_frontOnly h
  obtain ⟨-, -, d, hd, rfl⟩ := step_next h
  rw [hfront.flush, hfront.mem]
  rcases cycle_fetch_cases hd s with ⟨⟨e, he⟩, -⟩ | ⟨hf, hlf, -⟩ | ⟨hf, hstall, hlf, -⟩ | ⟨hf, hstall, hpc, hlf⟩
  · rw [hrun] at he; cases he
  · refine .inl ⟨hf, hlf, ?_⟩
    rcases olderStages_redirect (olderStages_running_of_cycle hrun) with ⟨p, hld, hb, -⟩ | ⟨-, hf', -⟩
    · by_contra hstall
      rw [hinv.not_branch_of_stall (Bool.not_eq_false _ ▸ hstall) hld] at hb
      cases hb
    · rw [hf] at hf'; cases hf'
  · exact .inr (.inl ⟨hf, hstall, hlf⟩)
  · exact .inr (.inr ⟨hf, hstall, (olderStages s).pc, hlf, hpc⟩)

/-! ## The ways a cycle halts -/

/-- A Fetch that halts the core raised Segfault at PC, and left everything before it as it was. -/
theorem fetchStep_halted {u v : State} {stall : Bool} {e : ErrorRecord} (hv : FrontOnly v u) (hpc : v.pc = u.pc)
    (hld : v.ld.clean = true) (hrun : v.status = .running) (h : (fetchStep stall v).status = .halted e) :
    e.stage = .fetch ∧ e.code = .segfault ∧ e.pc = u.pc ∧ (fetchStep stall v).lf = .fault e ∧
      (fetchStep stall v).pc = u.pc ∧ SameData (fetchStep stall v) u ∧ (fetchStep stall v).le = u.le ∧
      (fetchStep stall v).lm = u.lm ∧ (fetchStep stall v).lw = u.lw ∧ (fetchStep stall v).ld.clean = true := by
  have hfront : FrontOnly (fetchStep stall v) u := (fetchStep_frontOnly stall v).trans hv
  have raised : fetchStep stall v = v.raise .segfault .fetch v.pc := by
    rcases fetchStep_cases stall v with ⟨-, e'⟩ | ⟨-, -, e'⟩ | ⟨-, -, -, e'⟩ | ⟨-, -, -, e'⟩
    · rw [e'] at h; cases hrun.symm.trans h
    · rw [e'] at h; cases hrun.symm.trans h
    · rw [e'] at h; cases hrun.symm.trans h
    · exact e'
  rw [raised] at h hfront ⊢
  obtain rfl := Status.halted.inj ((State.raise_status ..).symm.trans h)
  exact ⟨rfl, rfl, hpc, rfl, hpc, hfront.sameData, hfront.le, hfront.lm, hfront.lw, hld⟩

/-- Settles O39: older stages that end healthy leave the error to Decode or Fetch; else it was Memory-access. -/
theorem haltLeavesTheWorkDone : Obligations.HaltLeavesTheWorkDone := by
  intro s t e hinv h he
  obtain ⟨hr, -, d, -, hd, rfl⟩ := step_next_decodes h
  rcases hinv.olderStages_cases hr with ⟨hh, -⟩ | ⟨p, hle, -, -, holder⟩
  · right
    rw [cycle_of_running hh.running] at he ⊢
    have hout := decodeStep_outcome hd s.bubbleNext (olderStages s)
    generalize decodeStep s.bubbleNext d (olderStages s) = v at hout he ⊢
    cases hout with
    | nothing =>
      rw [State.andThen_running _ (by exact hh.running)] at he ⊢
      exact .inr (fetchStep_halted (undecoded_frontOnly _) rfl rfl hh.running he)
    | passedOn err _ _ hlf =>
      obtain ⟨hclean, -⟩ := State.clean_iff.1 hh.clean
      rw [hlf] at hclean; cases hclean
    | raised p code _ _ hlf hcode =>
      rw [State.andThen_halted _ (State.raise_status ..)] at he ⊢
      obtain rfl := Status.halted.inj ((State.raise_status ..).symm.trans he)
      exact .inl ⟨rfl, hcode, ⟨p, by simpa using hlf, rfl⟩, rfl⟩
    | issued p q =>
      rw [State.andThen_running _ (by exact hh.running)] at he ⊢
      exact .inr (fetchStep_halted (issued_frontOnly _ q) rfl rfl hh.running he)
  · left
    have hhalted := State.raise_status (writeBackStep s.clearHazards) .segfault .memory p.fpc
    rw [cycle_of_halted (by rw [holder, hhalted]), holder] at he ⊢
    obtain rfl := Status.halted.inj (hhalted.symm.trans he)
    exact ⟨rfl, rfl, ⟨p, hle, rfl⟩, rfl⟩

end Sys2Proof.Machine
end

section
/-! PROOFS. The flight of one instruction with nothing before it in the pipeline (40_pipeline.md R141): what the core is
like when it stands in the Decode latch, the Execute latch and the Memory latch, whatever younger instructions
follow. -/

namespace Sys2Proof.Machine

theorem SameRegs.trans {t u v : State} (h : SameRegs t u) (h' : SameRegs u v) : SameRegs t v :=
  ⟨fun k hk => (h.regs k hk).trans (h'.regs k hk), h.flag.trans h'.flag⟩

/-- The same registers and the same memory are the same data. -/
theorem SameRegs.sameData {t s : State} (h : SameRegs t s) (hmem : t.mem = s.mem) : SameData t s :=
  { h with mem := fun x => by rw [hmem] }

theorem step_sameRegs {s t : State} (h : step s = .next t) : SameRegs t (olderStages s) :=
  (step_frontOnly h).sameData.toSameRegs

/-! ## When the older stages raise nothing -/

/-- The older stages raise nothing if Write-back does not, the access is allowed, and no slot holds an error. -/
theorem olderStages_running_of_allowed {s : State} (hwb : (writeBackStep s.clearHazards).status = .running)
    (hle : s.le.clean = true) (hp : ∀ p, s.le = .full p → p.Allowed s.par) (hld : s.ld.clean = true) :
    (olderStages s).status = .running := by
  have hmem : (memAccessStep (writeBackStep s.clearHazards)).status = .running := by
    cases hle' : s.le with
    | empty => rw [memAccessStep_of_empty (by simp [hle'])]; exact hwb
    | fault e => rw [hle'] at hle; cases hle
    | full p =>
      rw [memAccessStep_of_full (p := p) (by simp [hle']), memAccess_of_allowed (by simpa using hp p hle')]
      exact hwb
  rw [olderStages_of_writeBack hwb, State.andThen_running _ hmem]
  cases hld' : s.ld with
  | empty => rw [executeStep_of_empty (by simp [hld'])]; exact hmem
  | fault e => rw [hld'] at hld; cases hld
  | full p => rw [executeStep_of_full (p := p) (by simp [hld']), execute_status]; exact hmem

/-- Write-back of an empty Memory latch raises nothing and leaves PC. -/
theorem writeBackStep_running_of_empty {s : State} (hr : s.status = .running) (hlm : s.lm = .empty) :
    (writeBackStep s.clearHazards).status = .running := by
  rw [writeBackStep_of_empty (s := s.clearHazards) hlm]; exact hr

theorem writeBackStep_pc_of_empty {s : State} (hlm : s.lm = .empty) : (writeBackStep s.clearHazards).pc = s.pc := by
  rw [writeBackStep_of_empty (s := s.clearHazards) hlm]; rfl

/-- An instruction without a memory access is always allowed. -/
theorem EPayload.allowed_of_no_access {p : EPayload} (hr : p.ctl.memRead = false) (hw : p.ctl.memWrite = false)
    (par : Config.Params) : p.Allowed par := by
  simp [EPayload.Allowed, hr, hw]

/-- With no taken branch in the Decode latch and nothing in the Memory latch, the older stages leave PC and request no
flush. -/
theorem olderStages_in_sequence {s : State} (h : (olderStages s).status = .running) (hlm : s.lm = .empty)
    (hld : ∀ p, s.ld = .full p → p.ctl.branch = false ∨ taken p.op s.flag = false) :
    (olderStages s).flush = false ∧ (olderStages s).pc = s.pc := by
  have hflag : (olderStages s).flag = s.flag := (olderStages_sameRegs (s := s) (by simp [hlm])).flag
  rcases olderStages_redirect h with ⟨p, hp, hb, ht, -⟩ | ⟨-, hf, hpc⟩
  · rcases hld p hp with h' | h' <;> simp_all
  · exact ⟨hf, hpc.trans (writeBackStep_pc_of_empty hlm)⟩

/-! ## The places of the flight -/

/-- `t` is the core in the cycle after `s`'s, the instruction at Decode in `s` now being `p` in the Decode latch, with
nothing before it and the word at PC fetched behind it. -/
structure Launched (s t : State) (p : DPayload) : Prop where
  running : t.status = .running
  ld : t.ld = .full p
  le : t.le = .empty
  lm : t.lm = .empty
  lf : t.lf = .full { word := s.mem.readWord s.pc.toInt.toNat, fpc := s.pc }
  pc : t.pc = s.pc + 4
  stall : t.stall = decide (p.op = .cmp)
  bubble : t.bubbleNext = decide (p.op = .cmp)
  regs : SameRegs t s
  mem : t.mem = s.mem
  par : t.par = s.par

/-- `t` holds `p` in the Execute latch, with nothing before it and the data of `s`. -/
structure AtMemory (s t : State) (p : EPayload) : Prop where
  le : t.le = .full p
  lm : t.lm = .empty
  regs : SameRegs t s
  mem : t.mem = s.mem
  par : t.par = s.par

/-- `t` holds `p` in the Memory latch, with the registers of `s`. -/
structure AtWriteBack (s t : State) (p : MPayload) : Prop where
  lm : t.lm = .full p
  regs : SameRegs t s

/-- Decode of a well-formed instruction with nothing before it. -/
theorem Quiet.launched {s : State} {w fpc : Word} {i : Instr} {a b : DWord} (h : Quiet s w fpc) (hi : i.wf = true)
    (ha : readOperand s (normSrc1 i) fpc = some a) (hb : readSource2 s i.src2 fpc = some b) :
    ∃ sd t, readOperand s (normDest i) fpc = some sd ∧ exec i s = .next t ∧
      Launched s t (latchOf i a b sd fpc) := by
  obtain ⟨a', b', sd, t, ha', hb', hsd, hexec, ht⟩ := h.ready.exec_wf hi
  have hpc := ht.pc h.stall
  have hlf := ht.lf h.stall
  have hfront := ht.front
  rw [h.olderStages] at ha' hb' hsd hfront hpc hlf
  obtain rfl : a' = a := Option.some.inj (ha'.symm.trans ha)
  obtain rfl : b' = b := Option.some.inj (hb'.symm.trans hb)
  exact ⟨sd, t, hsd, hexec,
    { running := ht.running, ld := ht.ld, le := hfront.le, lm := hfront.lm, lf := hlf, pc := hpc, stall := ht.stall
      bubble := ht.bubble, regs := ⟨fun k hk => hfront.sameData.regs k hk, hfront.flag⟩, mem := hfront.mem
      par := hfront.par }⟩

namespace Launched
variable {s t u : State} {p : DPayload}

theorem older_running (h : Launched s t p) : (olderStages t).status = .running :=
  olderStages_running_of_allowed (writeBackStep_running_of_empty h.running h.lm) (by rw [h.le]; rfl)
    (by simp [h.le]) (by rw [h.ld]; rfl)

/-- The next cycle carries the instruction on to the Execute latch; no register and no byte changes. -/
theorem step (h : Launched s t p) (hstep : Machine.step t = .next u) : AtMemory s u p.executed := by
  have hfront := step_frontOnly hstep
  exact
    { le := hfront.le.trans (olderStages_le_of_full h.older_running h.ld)
      lm := hfront.lm.trans (olderStages_lm_of_empty (writeBackStep_running_of_empty h.running h.lm) h.le)
      regs := (step_sameRegs hstep).trans ((olderStages_sameRegs (by simp [h.lm])).trans h.regs)
      mem := hfront.mem.trans ((olderStages_mem_of_no_write (by simp [h.le])).trans h.mem)
      par := (step_par hstep).trans h.par }

end Launched

namespace AtMemory
variable {s t u : State} {p : EPayload}

theorem sameData (h : AtMemory s t p) : SameData t s := h.regs.sameData h.mem

/-- An allowed access is done in the next cycle. -/
theorem step (h : AtMemory s t p) (hstep : Machine.step t = .next u) (hp : p.Allowed s.par) :
    AtWriteBack s u (p.accessed s.mem) ∧ u.mem = p.stored s.mem := by
  have hfront := step_frontOnly hstep
  have hwb := writeBackStep_running_of_empty (running_of_step hstep) h.lm
  have hp' : p.Allowed t.par := h.par ▸ hp
  constructor
  · exact
      { lm := by rw [hfront.lm, olderStages_lm_of_full hwb h.le hp', h.mem]
        regs := (step_sameRegs hstep).trans ((olderStages_sameRegs (by simp [h.lm])).trans h.regs) }
  · rw [hfront.mem, olderStages_mem_of_full hwb h.le hp', h.mem]

/-- If the core still runs after the next cycle, the access was allowed. -/
theorem allowed_of_running (h : AtMemory s t p) (hstep : Machine.step t = .next u) (hu : u.status = .running) :
    p.Allowed s.par := by
  obtain ⟨-, -, d, -, rfl⟩ := step_next hstep
  exact h.par ▸ olderStages_allowed (olderStages_running_of_cycle hu) h.le

/-- An access that is not allowed halts the core in the next cycle, with all data as it was. -/
theorem step_of_not_allowed (h : AtMemory s t p) (hstep : Machine.step t = .next u) (hp : ¬p.Allowed s.par) :
    let e : ErrorRecord := { code := .segfault, stage := .memory, pc := p.fpc }
    u.status = .halted e ∧ u.lm = .fault e ∧ SameData u s := by
  obtain ⟨hr, -, d, hd, rfl⟩ := step_next hstep
  have hwb := writeBackStep_running_of_empty hr h.lm
  have holder := olderStages_of_not_allowed hwb h.le (h.par.symm ▸ hp)
  have hdata : SameData (olderStages t) t :=
    (olderStages_sameRegs (by simp [h.lm])).sameData (by rw [holder]; simp [State.raise])
  rw [cycle_of_halted (by rw [holder, State.raise_status])]
  exact ⟨by rw [holder, State.raise_status], by rw [holder]; rfl,
    (hdata.toSameRegs.trans h.regs).sameData (by rw [holder]; simp [State.raise, h.mem])⟩

/-- The older stages raise nothing in the cycle of an allowed access. -/
theorem older_running (h : AtMemory s t p) (hr : t.status = .running) (hp : p.Allowed s.par)
    (hld : t.ld.clean = true) : (olderStages t).status = .running := by
  refine olderStages_running_of_allowed (writeBackStep_running_of_empty hr h.lm) (by rw [h.le]; rfl)
    (fun q hq => ?_) hld
  obtain rfl : p = q := Latch.full.inj (h.le.symm.trans hq)
  exact h.par.symm ▸ hp

end AtMemory

/-- The older stages write back the value of the instruction in the Memory latch. -/
theorem olderStages_wroteBack {s : State} {p : MPayload} {v : DWord} (hlm : s.lm = .full p)
    (hw : p.ctl.regWrite = true) (hv : writeBackValue p = some v) (hrd : p.rd ≤ 9) :
    WroteBack (olderStages s) s p.op p.rd p.fpc v := by
  obtain ⟨t, ht, e⟩ := writeBackStep_of_value hlm hw hv hrd
  refine ⟨fun k hk => ?_, ?_, ?_⟩
  · simp only [olderStages_regs, e]
    exact ht.regs k hk
  · rw [olderStages_flag, e]
    simp only [ht.flag, eq_comm]
    rfl
  · rw [olderStages_lw, e]
    rfl

namespace AtWriteBack
variable {s t u : State} {p : MPayload}

theorem older_wroteBack {v : DWord} (h : AtWriteBack s t p) (hw : p.ctl.regWrite = true)
    (hv : writeBackValue p = some v) (hrd : p.rd ≤ 9) : WroteBack (olderStages t) s p.op p.rd p.fpc v := by
  obtain ⟨hregs, hflag, hlw⟩ := olderStages_wroteBack h.lm hw hv hrd
  exact ⟨fun k hk => (hregs k hk).trans (by rw [h.regs.regs k hk]), hflag.trans (by rw [h.regs.flag]), hlw⟩

/-- Write-back to a register raises nothing. -/
theorem writeBack_running (h : AtWriteBack s t p) (hr : t.status = .running) (hrd : p.rd ≤ 9) :
    (writeBackStep t.clearHazards).status = .running := by
  refine writeBackStep_running hr (by simp [h.lm, Latch.clean]) fun q hq => ?_
  obtain rfl : p = q := Latch.full.inj (h.lm.symm.trans hq)
  exact hrd

/-- The last cycle of the flight of an instruction that writes a register. -/
theorem step {v : DWord} (h : AtWriteBack s t p) (hstep : Machine.step t = .next u) (hw : p.ctl.regWrite = true)
    (hv : writeBackValue p = some v) (hrd : p.rd ≤ 9) : WroteBack u s p.op p.rd p.fpc v := by
  obtain ⟨hregs, hflag, hlw⟩ := h.older_wroteBack hw hv hrd
  have hfront := step_frontOnly hstep
  exact ⟨fun k hk => by simp only [hfront.regs, hregs k hk], hfront.flag.trans hflag, hfront.lw.trans hlw⟩

/-- The last cycle of the flight of an instruction that writes none. -/
theorem step_of_no_regWrite (h : AtWriteBack s t p) (hstep : Machine.step t = .next u) (hw : p.ctl.regWrite = false) :
    SameRegs u s := by
  have holder : SameRegs (olderStages t) t := olderStages_sameRegs fun q hq => by
    obtain rfl : p = q := Latch.full.inj (h.lm.symm.trans hq)
    exact hw
  exact (step_sameRegs hstep).trans (holder.trans h.regs)

end AtWriteBack

/-! ## The value written back -/

theorem writeBackValue_of_alu {p : EPayload} (h : p.ctl.wbSrc ≠ .mem) (m : Memory) :
    writeBackValue (p.accessed m) = some p.res := if_neg h

theorem writeBackValue_of_load {p : EPayload} (h : p.ctl = signalsFor .load) (m : Memory) :
    writeBackValue (p.accessed m) = some (sext32 (m.readWord p.res.toInt.toNat)) := by
  simp [writeBackValue, EPayload.accessed, h, signalsFor]

/-- Every instruction that writes a register has a value for it. -/
theorem writeBackValue_accessed {p : EPayload} (h : p.ctl = signalsFor p.op) (m : Memory) :
    ∃ v, writeBackValue (p.accessed m) = some v := by
  by_cases hop : p.op = .load
  · exact ⟨_, writeBackValue_of_load (h.trans (by rw [hop])) m⟩
  · refine ⟨_, writeBackValue_of_alu ?_ m⟩
    rw [h]
    revert hop
    cases p.op <;> decide

/-! ## The ALU instructions -/

/-- The flight of any instruction that writes its ALU result and makes no access. -/
theorem aluFlight {m : Mnemonic} {op : AluOp} {f : DWord → DWord → DWord} (hm : remapped m = false)
    (hsig : signalsFor m = ⟨true, false, false, op, .alu, false⟩) (hf : ∀ a b, alu op a b = f a b) :
    Claims.AluFlight (mkInstr m) f := by
  intro s w fpc rd rs1 src2 a b h hi ha hb
  have hsrc1 : normSrc1 (mkInstr m rd rs1 src2) = rs1.toNat := by simp [normSrc1, hm]
  have hdest : normDest (mkInstr m rd rs1 src2) = rd.toNat := by simp [normDest, hm]
  have hne : m ≠ .cmp := by rintro rfl; cases hm
  obtain ⟨sd, t1, -, hexec, h1⟩ := h.launched hi (hsrc1.symm ▸ ha) (by simpa using hb)
  have hstall : t1.stall = false := by simpa [latchOf, hne] using h1.stall
  refine ⟨t1, hexec, h1.running, hstall, h1.regs.sameData h1.mem, fun t2 t3 t4 s12 s23 s34 => ?_⟩
  have hctl : ((latchOf (mkInstr m rd rs1 src2) a b sd fpc).executed).ctl = ⟨true, false, false, op, .alu, false⟩ := by
    simpa [latchOf, DPayload.executed] using hsig
  have h2 := h1.step s12
  obtain ⟨h3, hmem⟩ := h2.step s23 (EPayload.allowed_of_no_access (by rw [hctl]) (by rw [hctl]) s.par)
  rw [EPayload.stored_of_no_write (by rw [hctl])] at hmem
  have h4 := h3.step s34 (by exact congrArg Ctrl.regWrite hctl) (writeBackValue_of_alu (by simp [hctl]) _)
    (by exact normDest_le hi)
  refine ⟨h2.sameData, h3.regs.sameData hmem, ?_⟩
  have hres : (latchOf (mkInstr m rd rs1 src2) a b sd fpc).executed.res = f a b := by
    simp [latchOf, DPayload.executed, hsig, hf]
  rw [hres] at h4
  exact hdest ▸ h4

/-- Settles O12: the six rows of the table with an ALU result (`aluFlight`). -/
theorem aluInstructionsWriteTheirResult : Obligations.AluInstructionsWriteTheirResult :=
  ⟨aluFlight (m := .add) rfl rfl fun _ _ => rfl, aluFlight (m := .sub) rfl rfl fun _ _ => rfl,
    aluFlight (m := .and) rfl rfl fun _ _ => rfl, aluFlight (m := .or) rfl rfl fun _ _ => rfl,
    aluFlight (m := .xor) rfl rfl fun _ _ => rfl, aluFlight (m := .mov) rfl rfl fun _ _ => rfl⟩

/-! ## LOAD and STORE -/

/-- Settles O13: the access is allowed, and its word is what Write-back writes. -/
theorem loadWritesTheWordLoaded : Obligations.LoadWritesTheWordLoaded := by
  intro s w fpc rd rs1 src2 a b h hi ha hb hlo hhi
  obtain ⟨sd, t1, -, hexec, h1⟩ := h.launched hi ha hb
  refine ⟨t1, hexec, h1.running, h1.stall, h1.regs.sameData h1.mem, fun t2 t3 t4 s12 s23 s34 => ?_⟩
  have h2 := h1.step s12
  obtain ⟨h3, hmem⟩ := h2.step s23 (fun _ => inBounds_iff.2 ⟨hlo, hhi⟩)
  exact ⟨h2.sameData, h3.regs.sameData hmem,
    h3.step s34 rfl (writeBackValue_of_load rfl _) (normDest_le hi)⟩

/-- A byte of the low word of a store's data. -/
theorem byteOfWord_trunc32 (v : DWord) {k : Nat} (hk : k < 4) :
    byteOfWord (trunc32 v) k = v.extractLsb' (24 - 8 * k) 8 :=
  BitVec.extractLsb'_setWidth_of_le (by omega)

/-- Settles O14: the access is allowed and stores the word's four bytes (`Memory.byteAt_writeWord`). -/
theorem storeWritesTheWord : Obligations.StoreWritesTheWord := by
  intro s w fpc rd rs1 src2 a b sd h hi ha hb hsd hlo hhi
  obtain ⟨sd', t1, hsd', hexec, h1⟩ := h.launched hi ha hb
  obtain rfl : sd' = sd := Option.some.inj (hsd'.symm.trans hsd)
  refine ⟨t1, hexec, h1.running, h1.stall, h1.regs.sameData h1.mem, fun t2 t3 s12 s23 => ?_⟩
  have h2 := h1.step s12
  obtain ⟨h3, hmem⟩ := h2.step s23 (fun _ => inBounds_iff.2 ⟨hlo, hhi⟩)
  replace hmem : t3.mem = s.mem.writeWord (a + b).toInt.toNat (trunc32 sd') := hmem
  have byte (k : Nat) (hk : k < 4) : t3.mem.byteAt ((a + b).toInt.toNat + k) = sd'.extractLsb' (24 - 8 * k) 8 := by
    rw [hmem, Memory.byteAt_writeWord_add _ _ _ hk, byteOfWord_trunc32 _ hk]
  exact ⟨h2.sameData, h3.regs, fun y hy => by rw [hmem, Memory.byteAt_writeWord_outside _ _ hy],
    byte 0 (by decide), byte 1 (by decide), byte 2 (by decide), byte 3 (by decide),
    fun t4 s34 => h3.step_of_no_regWrite s34 rfl⟩

/-- Settles O15: the access is not allowed, so the flight ends in Memory-access, and a halted core refuses the clock. -/
theorem outOfBoundsAccessHalts : Obligations.OutOfBoundsAccessHalts := by
  intro i s w fpc rd rs1 src2 a b hi h hwf ha hb hout
  obtain ⟨hop, hsrc1, hsrc2⟩ :
      (i.mnemonic = .load ∨ i.mnemonic = .store) ∧ normSrc1 i = rs1.toNat ∧ i.src2 = src2 := by
    rcases hi with rfl | rfl
    · exact ⟨.inl rfl, rfl, rfl⟩
    · exact ⟨.inr rfl, rfl, rfl⟩
  obtain ⟨sd, t1, -, hexec, h1⟩ := h.launched hwf (hsrc1.symm ▸ ha) (hsrc2.symm ▸ hb)
  refine ⟨t1, hexec, fun t2 t3 s12 s23 => ?_⟩
  have hnot : ¬(latchOf i a b sd fpc).executed.Allowed s.par := by
    refine EPayload.not_allowed ?_ ?_
    · rcases hop with hop | hop <;> simp [latchOf, DPayload.executed, hop, signalsFor]
    · rcases hop with hop | hop <;> simpa [latchOf, DPayload.executed, hop, signalsFor, alu] using hout
  obtain ⟨hst, hlm, hdata⟩ := (h1.step s12).step_of_not_allowed s23 hnot
  exact ⟨hst, hlm, exitCode_of_halted hst, hdata, step_of_halted hst⟩

end Sys2Proof.Machine
end

section
/-! PROOFS. CMP and the branches (43_compare_branch.md, 70_reset_and_hazards.md R223 to R227): the bubble behind a CMP,
the redirect of a taken branch, and when an instruction's value is first read. -/

namespace Sys2Proof.Machine

/-! ## The bubble behind a CMP -/

/-- The cycle after a CMP's Decode, in any pipeline: nothing is decoded and nothing is fetched. -/
theorem cycle_behind_cmp {t : State} (d : Word → State → State) (h : (olderStages t).status = .running)
    {p : DPayload} (hld : t.ld = .full p) (hb : p.ctl.branch = false) (hstall : t.stall = true)
    (hbubble : t.bubbleNext = true) :
    (olderStages t).flush = false ∧ cycle d t = (olderStages t).undecoded := by
  have hflush : (olderStages t).flush = false := by
    rcases olderStages_redirect h with ⟨q, hq, hqb, -⟩ | ⟨-, hf, -⟩
    · obtain rfl : p = q := Latch.full.inj (hld.symm.trans hq)
      rw [hb] at hqb; cases hqb
    · exact hf
  refine ⟨hflush, ?_⟩
  rw [cycle_of_bubble d h hflush hbubble, hstall, fetchStep_of_stall (by exact hflush)]

/-- Settles O21: Decode of the CMP requests both, and the next cycle (`cycle_behind_cmp`) clears them. -/
theorem cmpIsFollowedByOneBubble : Obligations.CmpIsFollowedByOneBubble := by
  intro s t u w fpc rd rs1 src2 h hi hexec hstep hrun
  obtain ⟨a, b, sd, -, -, -, e⟩ := h.exec_wf hi
  obtain rfl : _ = t := Host.Outcome.next.inj (e.symm.trans hexec)
  obtain ⟨-, -, d, -, rfl⟩ := step_next hstep
  have holder := olderStages_running_of_cycle hrun
  have hld := fetchStep_ld s.stall ((olderStages s).issued (latchOf (.cmp rd rs1 src2) a b sd fpc))
  have hstall := fetchStep_stall s.stall ((olderStages s).issued (latchOf (.cmp rd rs1 src2) a b sd fpc))
  have hbubble := fetchStep_bubbleNext s.stall ((olderStages s).issued (latchOf (.cmp rd rs1 src2) a b sd fpc))
  obtain ⟨hflush, hcycle⟩ := cycle_behind_cmp d holder hld rfl hstall hbubble
  rw [hcycle]
  exact ⟨⟨_, hld, rfl, rfl⟩, hstall, hbubble, rfl, olderStages_lf _, rfl, olderStages_stall _,
    olderStages_bubbleNext _, hflush⟩

/-- The Decode latch of a CMP. -/
def cmpLatch (a b sd : DWord) (fpc : Word) : DPayload :=
  { op := .cmp, ctl := signalsFor .cmp, rd := 9, a := a, b := b, sd := sd, fpc := fpc }

/-- The difference is what Write-back writes. -/
theorem writeBackValue_cmp (a b sd : DWord) (fpc : Word) (m : Memory) :
    writeBackValue ((cmpLatch a b sd fpc).executed.accessed m) = some (a - b) := rfl

/-- `t` is the core after the bubble cycle of a CMP of `a` and `b` that had nothing before it: the CMP in the Execute
latch, and the word after it, still waiting, at Decode. -/
structure BubbleDone (s t : State) (a b sd : DWord) (fpc : Word) : Prop where
  running : t.status = .running
  ld : t.ld = .empty
  lf : t.lf = .full { word := s.mem.readWord s.pc.toInt.toNat, fpc := s.pc }
  pc : t.pc = s.pc + 4
  stall : t.stall = false
  bubble : t.bubbleNext = false
  data : AtMemory s t (cmpLatch a b sd fpc).executed

theorem Launched.bubbleDone {s t : State} {a b sd : DWord} {fpc : Word} (hp : s.par.Wf)
    (h : Launched s t (cmpLatch a b sd fpc)) :
    ∃ u, Machine.step t = .next u ∧ u.lf = t.lf ∧ u.pc = t.pc ∧ BubbleDone s u a b sd fpc := by
  obtain ⟨d, -, hs⟩ := step_running h.running (h.par.symm ▸ hp)
  obtain ⟨-, hcycle⟩ := cycle_behind_cmp d h.older_running h.ld rfl h.stall h.bubble
  have hlf : (cycle d t).lf = t.lf := by rw [hcycle]; exact olderStages_lf t
  have hpc : (cycle d t).pc = t.pc := by
    rw [hcycle]
    obtain ⟨-, hpc⟩ := olderStages_in_sequence h.older_running h.lm fun p hp => by
      obtain rfl := Latch.full.inj (h.ld.symm.trans hp)
      exact .inl rfl
    exact hpc
  refine ⟨_, hs, hlf, hpc,
    { running := ?_, ld := ?_, lf := hlf.trans h.lf, pc := hpc.trans h.pc, stall := ?_, bubble := ?_
      data := h.step hs }⟩ <;> rw [hcycle]
  · exact h.older_running
  · rfl
  · exact olderStages_stall t
  · exact olderStages_bubbleNext t

/-- Decode of a CMP with nothing before it, and its bubble cycle. -/
theorem Quiet.cmp_bubbleDone {s : State} {w fpc : Word} {rd rs1 : BitVec 4} {src2 : Src2} {a b : DWord}
    (h : Quiet s w fpc) (hi : (Instr.cmp rd rs1 src2).wf = true) (ha : readOperand s rd.toNat fpc = some a)
    (hb : readSource2 s src2 fpc = some b) :
    ∃ sd t1 t2, exec (.cmp rd rs1 src2) s = .next t1 ∧ Launched s t1 (cmpLatch a b sd fpc) ∧
      step t1 = .next t2 ∧ t2.lf = t1.lf ∧ t2.pc = t1.pc ∧ BubbleDone s t2 a b sd fpc := by
  obtain ⟨sd, t1, -, hexec, h1⟩ := h.launched hi ha hb
  obtain ⟨t2, s12, hlf, hpc, h2⟩ := Launched.bubbleDone h.par h1
  exact ⟨sd, t1, t2, hexec, h1, s12, hlf, hpc, h2⟩

namespace BubbleDone
variable {s t u v : State} {fpc : Word} {a b sd : DWord}

/-- The older stages of the next cycle raise nothing: a CMP makes no access. -/
theorem older_running (h : BubbleDone s t a b sd fpc) : (olderStages t).status = .running := by
  exact h.data.older_running h.running (EPayload.allowed_of_no_access rfl rfl _) (by rw [h.ld]; rfl)

theorem in_sequence (h : BubbleDone s t a b sd fpc) :
    (olderStages t).flush = false ∧ (olderStages t).pc = s.pc + 4 := by
  obtain ⟨hf, hpc⟩ := olderStages_in_sequence h.older_running h.data.lm (by simp [h.ld])
  exact ⟨hf, hpc.trans h.pc⟩

/-- The word behind the CMP is decoded in the next cycle. -/
theorem atDecode (h : BubbleDone s t a b sd fpc) (hp : s.par.Wf) :
    AtDecode t (s.mem.readWord s.pc.toInt.toNat) s.pc := by
  obtain ⟨hflush, -⟩ := h.in_sequence
  exact
    { par := h.data.par.symm ▸ hp, running := h.running, lf := h.lf, bubble := h.bubble, older := h.older_running
      noFlush := hflush }

/-- The next cycle takes the CMP to the Memory latch, changes no data, and leaves nothing behind it in the Execute
latch. -/
theorem step (h : BubbleDone s t a b sd fpc) (hstep : Machine.step t = .next u) :
    AtWriteBack s u ((cmpLatch a b sd fpc).executed.accessed s.mem) ∧ u.mem = s.mem ∧ u.le = .empty := by
  obtain ⟨hwb, hmem⟩ := h.data.step hstep (EPayload.allowed_of_no_access rfl rfl _)
  exact ⟨hwb, hmem, (step_frontOnly hstep).le.trans (olderStages_le_of_empty h.older_running h.ld)⟩

/-- The cycle after that writes FLAG. -/
theorem wroteBack (h : BubbleDone s t a b sd fpc) (s23 : Machine.step t = .next u) (s34 : Machine.step u = .next v) :
    WroteBack v s .cmp 9 fpc (a - b) ∧ v.mem = s.mem := by
  obtain ⟨hwb, hmem, hle⟩ := h.step s23
  refine ⟨hwb.step s34 rfl (writeBackValue_cmp ..) (Nat.le_refl 9), ?_⟩
  rw [(step_frontOnly s34).mem, olderStages_mem_of_no_write (by simp [hle]), hmem]

end BubbleDone

/-- The difference of two 32-bit values is exact. -/
theorem toInt_sub_signExtend (x y : Word) :
    (x.signExtend 64 - y.signExtend 64 : DWord).toInt = x.toInt - y.toInt := by
  have hx : (x.signExtend 64).toInt = x.toInt := toInt_sext32 x
  have hy : (y.signExtend 64).toInt = y.toInt := toInt_sext32 y
  obtain ⟨hx1, hx2⟩ := toInt_word_range x
  obtain ⟨hy1, hy2⟩ := toInt_word_range y
  have hsub := toInt_alu_sub (a := x.signExtend 64) (b := y.signExtend 64) (by omega) (by omega)
  rwa [hx, hy] at hsub

/-- Settles O16: launch, bubble (`Quiet.cmp_bubbleDone`) and Write-back (`BubbleDone.wroteBack`) of a CMP. -/
theorem cmpWritesTheDifference : Obligations.CmpWritesTheDifference := by
  intro s w fpc rd rs1 src2 a b h hi ha hb
  obtain ⟨sd, t1, t2, hexec, h1, s12, hlf, hpc, h2⟩ := h.cmp_bubbleDone hi ha hb
  refine ⟨t1, t2, hexec, h1.running, h1.stall, h1.bubble, h1.regs.sameData h1.mem, s12, h2.running, h2.ld, hlf, hpc,
    h2.stall, h2.bubble, h2.data.sameData, fun t3 t4 s23 s34 => ?_⟩
  obtain ⟨h3, hmem3, -⟩ := h2.step s23
  obtain ⟨h4, hmem4⟩ := h2.wroteBack s23 s34
  refine ⟨h3.regs.sameData hmem3, h4, fun x => by rw [hmem4], ?_⟩
  rintro x y rfl rfl
  have hflag : t4.flag = x.signExtend 64 - y.signExtend 64 := h4.flag
  have hint := toInt_sub_signExtend x y
  rw [← toInt_eq_zero_iff, hflag, hint, ← BitVec.toInt_inj (x := x)]
  exact ⟨rfl, by omega, by omega⟩

/-- PC after a word that fits below `2 ^ 31`. -/
theorem toInt_pc_add_four {pc : Word} (h : pc.toInt + 4 < 2 ^ 31) : (pc + 4).toInt = pc.toInt + 4 := by
  obtain ⟨hlo, -⟩ := toInt_word_range pc
  have hfour : (4 : Word).toInt = 4 := by decide
  rw [BitVec.toInt_add, hfour, Int.bmod_eq_of_le] <;> omega

/-- Settles O19: the word behind the CMP is decoded after the bubble and the next one fetched, so no cycle halts before
the CMP's Write-back. -/
theorem cmpReachesWriteBack : Obligations.CmpReachesWriteBack := by
  intro i1 s w fpc rd rs1 src2 a b h hi ha hb hin hdec
  obtain ⟨sd, t1, t2, hexec, h1, s12, -, -, h2⟩ := h.cmp_bubbleDone hi ha hb
  have hpc : (s.pc + 4).toInt = s.pc.toInt + 4 := by
    obtain ⟨-, hub, -⟩ := h.par
    obtain ⟨-, hhi⟩ := inBounds_iff.1 hin
    exact toInt_pc_add_four (by omega)
  obtain ⟨-, hpc2⟩ := h2.in_sequence
  have hready : Ready t2 (s.mem.readWord s.pc.toInt.toNat) s.pc :=
    { h2.atDecode h.par with fetch := .inr (by rw [hpc2, hpc, h2.data.par]; exact hin) }
  obtain ⟨_, _, _, t3, -, -, -, hexec3, h3⟩ := hready.exec_wf (wf_of_decodeWord hdec)
  have s23 : step t2 = .next t3 := (step_of_decodeWord h2.lf (by rw [h2.data.par]; exact hdec)).trans hexec3
  obtain ⟨d, -, s34⟩ := step_running h3.running (((step_par s23).trans h2.data.par).symm ▸ h.par)
  obtain ⟨⟨-, hflag, hlw⟩, -⟩ := h2.wroteBack s23 s34
  exact ⟨t1, t2, t3, _, hexec, s12, s23, s34, h3.running, hflag, hlw⟩

/-- Settles O22: the branch is in the Decode latch in the cycle in which the CMP writes FLAG, and Execute comes after
Write-back. -/
theorem branchAfterCmpSeesTheNewFlag : Obligations.BranchAfterCmpSeesTheNewFlag := by
  intro s t1 t2 t3 t4 w fpc rd rs1 src2 a b br h hi ha hb hdec hbr hexec s12 s23 s34
  obtain ⟨sd, t1', t2', hexec', -, s12', -, -, h2⟩ := h.cmp_bubbleDone hi ha hb
  obtain rfl : t1' = t1 := Host.Outcome.next.inj (hexec'.symm.trans hexec)
  obtain rfl : t2' = t2 := Host.Outcome.next.inj (s12'.symm.trans s12)
  obtain ⟨⟨-, hflag, -⟩, -⟩ := h2.wroteBack s23 s34
  replace hflag : t4.flag = a - b := hflag
  have hfront := step_frontOnly s34
  refine ⟨hflag, ?_⟩
  obtain ⟨a', b', sd', -, -, -, hexec3⟩ := (h2.atDecode h.par).exec_wf (wf_of_decodeWord hdec)
  have hld : t3.ld = .full (latchOf br a' b' sd' s.pc) := by
    obtain rfl : _ = t3 := Host.Outcome.next.inj
      (hexec3.symm.trans ((step_of_decodeWord h2.lf (by rw [h2.data.par]; exact hdec)).symm.trans s23))
    simp
  obtain ⟨h3, -, hle⟩ := h2.step s23
  have hwb := h3.writeBack_running (running_of_step s34) (Nat.le_refl 9)
  have holder : (olderStages t3).status = .running :=
    olderStages_running_of_allowed hwb (by rw [hle]; rfl) (by simp [hle]) (by rw [hld]; rfl)
  have htaken : t4.flush = true ↔ taken br.mnemonic (a - b) = true := by
    rw [hfront.flush, ← hflag, hfront.flag]
    rcases olderStages_redirect holder with ⟨p, hp, -, ht, hf, -⟩ | ⟨hno, hf, -⟩
    · obtain rfl := Latch.full.inj (hld.symm.trans hp)
      exact iff_of_true hf ht
    · rcases hno _ hld with hb | ht
      · rcases hbr with hbr | hbr <;> simp [latchOf, hbr, signalsFor] at hb
      · exact iff_of_false (by simp [hf]) (by simpa [latchOf] using ht)
  rw [htaken]
  rcases hbr with hbr | hbr <;> simp [hbr, taken]

/-! ## Branches -/

/-- The cycle after a taken branch: nothing stands at Decode, and Fetch reads at the target. -/
theorem AtMemory.step_after_flush {s t : State} {p : EPayload} (h : AtMemory s t p) (hp : s.par.Wf)
    (hmr : p.ctl.memRead = false) (hmw : p.ctl.memWrite = false) (hrun : t.status = .running) (hlf : t.lf = .empty)
    (hld : t.ld = .empty) (hstall : t.stall = false) (hbubble : t.bubbleNext = false) :
    ∃ u, Machine.step t = .next u ∧ SameData u s ∧ u.ld = .empty ∧ u.flush = false ∧
      (if (s.par.lb : Int) ≤ t.pc.toInt ∧ t.pc.toInt + 4 ≤ (s.par.ub : Int) then
        u.status = .running ∧ u.pc = t.pc + 4 ∧ u.lf = .full { word := s.mem.readWord t.pc.toInt.toNat, fpc := t.pc }
      else u.pc = t.pc ∧ u.status = .halted { code := .segfault, stage := .fetch, pc := t.pc }) := by
  have hallowed := EPayload.allowed_of_no_access hmr hmw s.par
  have holder := h.older_running hrun hallowed (by rw [hld]; rfl)
  obtain ⟨hflush, hpc⟩ := olderStages_in_sequence holder h.lm (by simp [hld])
  obtain ⟨d, hd, hs⟩ := step_running hrun (h.par.symm ▸ hp)
  obtain ⟨hwb, hmem⟩ := h.step hs hallowed
  rw [EPayload.stored_of_no_write hmw] at hmem
  have hcycle : cycle d t = fetchStep false (olderStages t).undecoded := by
    rw [cycle_of_lf_empty d holder hflush hbubble hlf, hstall]
  refine ⟨_, hs, hwb.regs.sameData hmem, by rw [hcycle]; simp, (step_frontOnly hs).flush.trans hflush, ?_⟩
  have hpar : (olderStages t).undecoded.par = s.par := (olderStages_par t).trans h.par
  have hpc' : (olderStages t).undecoded.pc = t.pc := hpc
  have hmem' : (olderStages t).undecoded.mem = s.mem := (step_frontOnly hs).mem.symm.trans hmem
  by_cases hin : inBounds s.par t.pc.toInt = true
  · rw [if_pos (inBounds_iff.1 hin), hcycle, fetchStep_of_inBounds (by exact hflush) (by rw [hpar, hpc']; exact hin),
      State.fetched_status, State.fetched_pc, State.fetched_lf, hpc', hmem']
    exact ⟨holder, rfl, rfl⟩
  · rw [if_neg (mt inBounds_iff.2 hin), hcycle, fetchStep_of_outOfBounds (by exact hflush)
      (by rw [hpar, hpc']; exact Bool.eq_false_iff.2 hin), State.raise_status, hpc']
    exact ⟨hpc', rfl⟩

/-- The flight of any branch. -/
theorem branchFlight {m : Mnemonic} {cond : DWord → Prop} (hm : remapped m = true)
    (hsig : signalsFor m = ⟨false, false, false, .add, .none, true⟩) (hcond : ∀ f, taken m f = true ↔ cond f) :
    Claims.BranchFlight (mkInstr m) cond := by
  intro s w fpc rd rs1 src2 a b h hi ha hb
  have hsrc1 : normSrc1 (mkInstr m rd rs1 src2) = rd.toNat := by simp [normSrc1, hm]
  have hne : m ≠ .cmp := by rintro rfl; cases hsig
  obtain ⟨sd, t1, -, hexec, h1⟩ := h.launched hi (hsrc1.symm ▸ ha) (by simpa using hb)
  have hctl : (latchOf (mkInstr m rd rs1 src2) a b sd fpc).ctl = ⟨false, false, false, .add, .none, true⟩ := by
    simpa [latchOf] using hsig
  have hop : (latchOf (mkInstr m rd rs1 src2) a b sd fpc).op = m := by simp [latchOf]
  have hstall : t1.stall = false := by simpa [hop, hne] using h1.stall
  obtain ⟨d, hd, s12⟩ := step_running h1.running (h1.par.symm ▸ h.par)
  have h2 := h1.step s12
  refine ⟨t1, _, hexec, h1.running, hstall, h1.regs.sameData h1.mem, s12, h2.sameData, fun hc => ?_, fun hc => ?_⟩
  · have htaken : taken (latchOf (mkInstr m rd rs1 src2) a b sd fpc).op (olderStages t1).flag = true := by
      rw [hop, (olderStages_sameRegs (by simp [h1.lm])).flag, h1.regs.flag]
      exact (hcond _).2 hc
    obtain ⟨t2, s12', hrun, hpc, hflush, hlf, hld, hst, hbubble, -, -⟩ :=
      takenBranchFlushes t1 _ h1.running (h1.par.symm ▸ h.par) h1.ld (by rw [hctl]) h1.older_running htaken
    obtain rfl : _ = t2 := Host.Outcome.next.inj (s12.symm.trans s12')
    exact ⟨hrun, hflush, by rw [hpc, hctl]; rfl, hlf, hld,
      h2.step_after_flush h.par (congrArg Ctrl.memRead hctl) (congrArg Ctrl.memWrite hctl) hrun hlf hld hst hbubble⟩
  · have hnot : taken m s.flag = false := Bool.eq_false_iff.2 (mt (hcond s.flag).1 hc)
    obtain ⟨hf, hpc⟩ := olderStages_in_sequence h1.older_running h1.lm fun p hp => by
      obtain rfl := Latch.full.inj (h1.ld.symm.trans hp)
      exact .inr (by rw [hop, h1.regs.flag]; exact hnot)
    refine ⟨(step_frontOnly s12).flush.trans hf, fun hrun => ?_, fun t3 t4 s23 s34 => ?_⟩
    · rcases cycle_fetch_cases hd t1 with ⟨⟨e, he⟩, -⟩ | ⟨hf', -⟩ | ⟨-, hst, -⟩ | ⟨-, -, hpc', -⟩
      · rw [hrun] at he; cases he
      · rw [hf] at hf'; cases hf'
      · rw [hstall] at hst; cases hst
      · rw [hpc', hpc]
    · obtain ⟨h3, hmem⟩ := h2.step s23
        (EPayload.allowed_of_no_access (congrArg Ctrl.memRead hctl) (congrArg Ctrl.memWrite hctl) s.par)
      rw [EPayload.stored_of_no_write (congrArg Ctrl.memWrite hctl)] at hmem
      exact ⟨h3.regs.sameData hmem, h3.step_of_no_regWrite s34 (congrArg Ctrl.regWrite hctl)⟩

/-- Settles O17: the three rows of the table that branch, each with its condition (`branchFlight`). -/
theorem branchesRedirectWhenTaken : Obligations.BranchesRedirectWhenTaken :=
  ⟨branchFlight (m := .brn) rfl rfl fun f => by simp, branchFlight (m := .beq) rfl rfl taken_beq_iff,
    branchFlight (m := .bne) rfl rfl taken_bne_iff⟩

end Sys2Proof.Machine
end

section
/-! PROOFS. Instructions one after another (70_reset_and_hazards.md R223 to R227): when a result is first read, when an
instruction is sure to reach Write-back, and a LOAD behind a STORE. -/

namespace Sys2Proof.Machine

/-- The operands of CMP and of the branches are normalized, and no others (40_pipeline.md R102). -/
theorem remapped_iff (m : Mnemonic) : remapped m = true ↔ m = .cmp ∨ (signalsFor m).branch = true := by
  cases m <;> decide

theorem not_cmp_of_not_remapped {m : Mnemonic} (h : remapped m = false) : m ≠ .cmp := by
  rintro rfl
  cases h

theorem not_branch_of_not_remapped {m : Mnemonic} (h : remapped m = false) : (signalsFor m).branch = false := by
  by_contra hb
  rw [(remapped_iff m).2 (.inr (Bool.not_eq_false _ ▸ hb))] at h
  cases h

/-- The destination of an instruction that writes a register, other than CMP, is its own: branches write none. -/
theorem not_remapped_of_regWrite {m : Mnemonic} (h : (signalsFor m).regWrite = true) (hc : m ≠ .cmp) :
    remapped m = false := by
  by_contra hm
  have hbranch := ((remapped_iff m).1 (Bool.not_eq_false _ ▸ hm)).resolve_left hc
  obtain rfl | rfl | rfl := (signalsFor_branch m).1 hbranch
  · cases h
  · cases h
  · cases h

theorem normSrc1_of_not_remapped {i : Instr} (h : remapped i.mnemonic = false) : normSrc1 i = i.rs1.toNat := by
  simp [normSrc1, h]

theorem normDest_of_not_remapped {i : Instr} (h : remapped i.mnemonic = false) : normDest i = i.rd.toNat := by
  simp [normDest, h]

/-! ## No forwarding -/

/-- Settles O20: in the two cycles after the launch the Memory latch is empty, in the third it holds the instruction. -/
theorem noForwardingBeforeWriteBack : Obligations.NoForwardingBeforeWriteBack := by
  intro i s t1 t2 t3 w fpc h hi hw hne hexec s12 s23 hrun
  obtain ⟨a, b, sd', ha, hb, -⟩ := issue_eq_issued hi fpc s
  obtain ⟨sd, t1', -, hexec', h1⟩ := h.launched hi ha hb
  obtain rfl : t1' = t1 := Host.Outcome.next.inj (hexec'.symm.trans hexec)
  have h2 := h1.step s12
  obtain ⟨h3, -⟩ := h2.step s23 (h2.allowed_of_running s23 hrun)
  obtain ⟨v, hv⟩ := writeBackValue_accessed (p := (latchOf i a b sd fpc).executed) rfl s.mem
  obtain ⟨hregs, hflag, -⟩ := h3.older_wroteBack hw hv (normDest_le hi)
  have hdest := normDest_of_not_remapped (not_remapped_of_regWrite hw hne)
  exact ⟨(olderStages_sameRegs (by simp [h1.lm])).trans h1.regs, (olderStages_sameRegs (by simp [h2.lm])).trans h2.regs,
    _, v, h3.lm, rfl, hv, hdest ▸ hregs, hdest ▸ hflag⟩

/-! ## Reaching Write-back -/

/-- What Write-back records of an instruction, whether it writes a register or not. -/
theorem AtWriteBack.step_lw {s t u : State} {p : MPayload} (h : AtWriteBack s t p) (hstep : Machine.step t = .next u)
    (hv : ∃ v, writeBackValue p = some v) (hrd : p.rd ≤ 9) :
    ∃ v, u.lw = .full { op := p.op, rd := p.rd, fpc := p.fpc, wrote := p.ctl.regWrite, value := v } := by
  cases hw : p.ctl.regWrite with
  | true =>
    obtain ⟨v, hv⟩ := hv
    exact ⟨_, (h.step hstep hw hv hrd).lw⟩
  | false =>
    refine ⟨0, ?_⟩
    rw [(step_frontOnly hstep).lw, olderStages_lw, writeBackStep_of_full (p := p) (by exact h.lm),
      writeBack_of_no_regWrite _ hw]
    rfl

/-- The word behind an instruction that is neither CMP nor a branch is decoded in the next cycle, in sequence. -/
theorem ready_behind {t : State} {w fpc : Word} {p : DPayload} (hp : t.par.Wf) (hrun : t.status = .running)
    (hlf : t.lf = .full { word := w, fpc := fpc }) (hld : t.ld = .full p) (hb : p.ctl.branch = false)
    (hbubble : t.bubbleNext = false) (hlm : t.lm = .empty) (holder : (olderStages t).status = .running)
    (hin : inBounds t.par t.pc.toInt = true) : Ready t w fpc ∧ (olderStages t).pc = t.pc := by
  obtain ⟨hflush, hpc⟩ := olderStages_in_sequence holder hlm fun q hq => by
    obtain rfl := Latch.full.inj (hld.symm.trans hq)
    exact .inl hb
  exact ⟨{ par := hp, running := hrun, lf := hlf, bubble := hbubble, older := holder, noFlush := hflush
           fetch := .inr (by rw [hpc]; exact hin) }, hpc⟩

/-- The cycle that decodes the word behind a launched instruction and fetches the one after it. -/
theorem Launched.decode_next {s t : State} {p : DPayload} {i : Instr} (h : Launched s t p) (hp : s.par.Wf)
    (hcmp : p.op ≠ .cmp) (hb : p.ctl.branch = false)
    (hdec : decodeWord s.par.opcodeMap (s.mem.readWord s.pc.toInt.toNat) = .ok i)
    (hin : inBounds s.par (s.pc + 4).toInt = true) :
    ∃ u q, Machine.step t = .next u ∧ u.status = .running ∧ u.ld = .full q ∧ q.op = i.mnemonic ∧
      q.ctl = signalsFor i.mnemonic ∧ u.bubbleNext = decide (i.mnemonic = .cmp) ∧ u.pc = s.pc + 4 + 4 ∧
      u.lf = .full { word := s.mem.readWord (s.pc + 4).toInt.toNat, fpc := s.pc + 4 } := by
  obtain ⟨hready, hpc⟩ := ready_behind (h.par.symm ▸ hp) h.running h.lf h.ld hb (h.bubble.trans (decide_eq_false hcmp))
    h.lm h.older_running (by rw [h.par, h.pc]; exact hin)
  obtain ⟨a, b, sd, u, -, -, -, hexec, hu⟩ := hready.exec_wf (wf_of_decodeWord hdec)
  have hstep : Machine.step t = .next u := (step_of_decodeWord h.lf (by rw [h.par]; exact hdec)).trans hexec
  have hmem : (olderStages t).mem = s.mem := (step_frontOnly hstep).mem.symm.trans (h.step hstep).mem
  have hstall := h.stall.trans (decide_eq_false hcmp)
  have hupc := hu.pc hstall
  have hlf := hu.lf hstall
  rw [hpc, h.pc] at hupc hlf
  rw [hmem] at hlf
  exact ⟨u, _, hstep, hu.running, hu.ld, rfl, rfl, hu.bubble, hupc, hlf⟩

/-- The access of a LOAD or STORE in bounds is allowed; other instructions make none. -/
theorem executed_allowed {i : Instr} {a b sd : DWord} {fpc : Word} {par : Config.Params}
    (h : (signalsFor i.mnemonic).memRead = true ∨ (signalsFor i.mnemonic).memWrite = true →
      inBounds par (a + b).toInt = true) : (latchOf i a b sd fpc).executed.Allowed par := by
  intro hmem
  have hadd : (signalsFor i.mnemonic).aluOp = .add := by
    rcases hmem with hr | hw
    · rw [(signalsFor_memRead _).1 hr]; rfl
    · rw [(signalsFor_memWrite _).1 hw]; rfl
  have hres : (latchOf i a b sd fpc).executed.res = a + b := by
    simp [DPayload.executed, latchOf, hadd, alu]
  rw [hres]
  exact h hmem

/-- Settles O18: the two words behind the instruction are decoded and the third fetched, so no cycle halts before its
Write-back. -/
theorem drainedInstructionReachesWriteBack : Obligations.DrainedInstructionReachesWriteBack := by
  intro i i1 i2 s w fpc a b h hi hm ha hb hacc hin hdec1 hm1 hdec2 hm2
  obtain ⟨-, hub, -⟩ := h.par
  obtain ⟨hlo, -⟩ := inBounds_iff.1 h.fetch
  obtain ⟨-, hhi⟩ := inBounds_iff.1 hin
  have hpc4 : (s.pc + 4).toInt = s.pc.toInt + 4 := toInt_pc_add_four (by omega)
  have hpc8 : (s.pc + 4 + 4).toInt = s.pc.toInt + 8 := by rw [toInt_pc_add_four] <;> omega
  obtain ⟨sd, t1, -, hexec, h1⟩ := h.launched hi (normSrc1_of_not_remapped hm ▸ ha) hb
  obtain ⟨t2, q, s12, hrun2, hld2, hop, hctl, hbubble2, hpc2, hlf2⟩ := h1.decode_next h.par
    (not_cmp_of_not_remapped hm) (not_branch_of_not_remapped hm) hdec1 (by rw [hpc4, inBounds_iff]; omega)
  rw [hpc4] at hlf2
  have h2 := h1.step s12
  have hallowed := executed_allowed (sd := sd) (fpc := fpc) hacc
  obtain ⟨hready2, -⟩ := ready_behind (h2.par.symm ▸ h.par) hrun2 hlf2 hld2
    (by rw [hctl]; exact not_branch_of_not_remapped hm1)
    (hbubble2.trans (decide_eq_false (not_cmp_of_not_remapped hm1))) h2.lm
    (h2.older_running hrun2 hallowed (by rw [hld2]; rfl)) (by rw [h2.par, hpc2, hpc8]; exact hin)
  obtain ⟨_, _, _, t3, -, -, -, hexec2, ht3⟩ := hready2.exec_wf (wf_of_decodeWord hdec2)
  have s23 : step t2 = .next t3 := (step_of_decodeWord hlf2 (by rw [h2.par]; exact hdec2)).trans hexec2
  obtain ⟨h3, -⟩ := h2.step s23 hallowed
  obtain ⟨d, -, s34⟩ := step_running ht3.running (((step_par s23).trans h2.par).symm ▸ h.par)
  obtain ⟨v, hlw⟩ := h3.step_lw s34 (writeBackValue_accessed rfl s.mem) (normDest_le hi)
  refine ⟨t1, t2, t3, _, hexec, s12, s23, s34, ht3.running, v, hlw.trans ?_⟩
  rw [← normDest_of_not_remapped hm]
  rfl

/-! ## A LOAD behind a STORE -/

/-- Settles O26: the STORE's word is in memory in the cycle in which the LOAD reads it. -/
theorem loadAfterStoreSeesTheBytes : Obligations.LoadAfterStoreSeesTheBytes := by
  intro s t u p q hle hp hin hld hq haddr s12 hrun s23 hrun2
  obtain ⟨-, -, d, -, ht⟩ := step_next s12
  have holder : (olderStages s).status = .running := olderStages_running_of_cycle (ht ▸ hrun)
  have hfront := step_frontOnly s12
  have hmem : t.mem = s.mem.writeWord p.res.toInt.toNat (trunc32 p.sd) := by
    rw [hfront.mem, olderStages_mem_of_full (olderStages_writeBack_running holder) hle (olderStages_allowed holder hle),
      EPayload.stored_of_write (by rw [hp]; rfl)]
  have htle : t.le = .full q.executed := hfront.le.trans (olderStages_le_of_full holder hld)
  have hres : q.executed.res = p.res := by
    rw [← haddr, DPayload.executed, hq]; rfl
  refine ⟨q.executed.accessed t.mem, ?_, rfl, ?_⟩
  · rw [(step_frontOnly s23).lm, olderStages_lm_of_full (olderStages_writeBack_running hrun2) htle
      (olderStages_allowed hrun2 htle)]
  · have hread : q.executed.ctl.memRead = true := by rw [DPayload.executed, hq]; rfl
    simp only [EPayload.accessed, hread, hres, hmem, Memory.readWord_writeWord, if_pos]
    rfl

end Sys2Proof.Machine
end

section
/-! PROOFS. What a cycle does not depend on (40_pipeline.md R123, 10_state.md R35, 30_encoding.md R74): the Write-back
latch and the flush flag as they were, and of the arguments anything but the bounds, once the word is decoded. -/

namespace Sys2Proof.Machine

/-- The core over other arguments. -/
def State.withPar (s : State) (q : Config.Params) : State := { s with par := q }

/-- The core over other arguments and with another old Write-back latch and flush flag. -/
def State.disguised (s : State) (l : Latch WPayload) (f : Bool) (q : Config.Params) : State :=
  { s with lw := l, flush := f, par := q }

/-- The two arguments that a cycle reads: the bounds. -/
def SameBounds (q p : Config.Params) : Prop := q.lb = p.lb ∧ q.ub = p.ub

theorem inBounds_of_sameBounds {q p : Config.Params} (h : SameBounds q p) (a : Int) : inBounds q a = inBounds p a := by
  obtain ⟨hlb, hub⟩ := h
  rw [inBounds, inBounds, hlb, hub]

section Commute
variable (s : State) (q : Config.Params)

theorem State.withPar_self : s.withPar s.par = s := rfl

theorem State.haltAt_withPar (st : Stage) (e : ErrorRecord) :
    (s.withPar q).haltAt st e = (s.haltAt st e).withPar q := by
  cases st <;> rfl

/-- Steps in sequence do not see the arguments if neither of the two does. -/
theorem State.andThen_withPar {f : State → State} (hf : f (s.withPar q) = (f s).withPar q) :
    (s.withPar q).andThen f = (s.andThen f).withPar q := by
  rcases State.andThen_cases s f with ⟨hr, e⟩ | ⟨err, hh, e⟩ <;> rw [e]
  · rw [State.andThen_running f (by exact hr), hf]
  · rw [State.andThen_halted f (by exact hh)]

/-! ## The stages -/

/-- Write-back replaces its latch whatever it held, and reads no argument. -/
theorem writeBack_disguised (l : Latch WPayload) (f : Bool) (p : MPayload) :
    writeBack (s.disguised l f q) p = { writeBack s p with flush := f, par := q } := by
  by_cases hw : p.ctl.regWrite = true
  · cases hv : writeBackValue p with
    | none => simp [writeBack, hw, hv, State.disguised]
    | some v =>
      by_cases h9 : 9 < p.rd
      · simp only [writeBack, hw, hv, State.writeReg_eq_none _ _ h9]
        rfl
      · rcases (show p.rd < 8 ∨ p.rd = 8 ∨ p.rd = 9 by omega) with h | h | h <;>
          simp [writeBack, hw, hv, State.writeReg, State.readReg, h, State.disguised]
  · simp [writeBack, hw, State.disguised]

theorem writeBackStep_disguised (l : Latch WPayload) (f : Bool) :
    writeBackStep (s.disguised l f q) = { writeBackStep s with flush := f, par := q } := by
  cases hlm : s.lm with
  | empty => rw [writeBackStep_of_empty hlm, writeBackStep_of_empty (s := s.disguised l f q) hlm]; rfl
  | full p => rw [writeBackStep_of_full hlm, writeBackStep_of_full (s := s.disguised l f q) hlm, writeBack_disguised]
  | fault e => rw [writeBackStep_of_fault hlm, writeBackStep_of_fault (s := s.disguised l f q) hlm]; rfl

theorem memAccessStep_withPar (h : SameBounds q s.par) :
    memAccessStep (s.withPar q) = (memAccessStep s).withPar q := by
  cases hle : s.le with
  | empty => rw [memAccessStep_of_empty hle, memAccessStep_of_empty (s := s.withPar q) hle]; rfl
  | fault e => rw [memAccessStep_of_fault hle, memAccessStep_of_fault (s := s.withPar q) hle, State.haltAt_withPar]
  | full p =>
    rw [memAccessStep_of_full hle, memAccessStep_of_full (s := s.withPar q) hle]
    have hiff : p.Allowed (s.withPar q).par ↔ p.Allowed s.par := by
      simp only [EPayload.Allowed, ← inBounds_of_sameBounds h, State.withPar]
    by_cases hp : p.Allowed s.par
    · rw [memAccess_of_allowed hp, memAccess_of_allowed (hiff.2 hp)]; rfl
    · rw [memAccess_of_not_allowed hp, memAccess_of_not_allowed (mt hiff.1 hp)]; rfl

theorem executeStep_withPar : executeStep (s.withPar q) = (executeStep s).withPar q := by
  cases hld : s.ld with
  | empty => rw [executeStep_of_empty hld, executeStep_of_empty (s := s.withPar q) hld]; rfl
  | fault e => rw [executeStep_of_fault hld, executeStep_of_fault (s := s.withPar q) hld, State.haltAt_withPar]
  | full p =>
    rw [executeStep_of_full hld, executeStep_of_full (s := s.withPar q) hld]
    rcases execute_cases s p with ⟨hb, ht, e⟩ | ⟨hn, e⟩ <;> rw [e]
    · rw [execute_of_taken (s := s.withPar q) hb ht]; rfl
    · rw [execute_of_not_taken (s := s.withPar q) hn]; rfl

/-- The hazard flags are cleared before Write-back replaces its latch. -/
theorem olderStages_disguised (l : Latch WPayload) (f : Bool) (h : SameBounds q s.par) :
    olderStages (s.disguised l f q) = (olderStages s).withPar q := by
  have hwb : writeBackStep (s.disguised l f q).clearHazards = (writeBackStep s.clearHazards).withPar q := by
    have hflush : (writeBackStep s.clearHazards).flush = false := by simp
    exact (writeBackStep_disguised s.clearHazards q l false).trans (by rw [State.withPar, ← hflush])
  have hpar : ((writeBackStep s.clearHazards).andThen memAccessStep).par = s.par := by
    rw [State.andThen_keeps State.par _ _ (memAccessStep_par _)]; simp
  rw [olderStages, hwb, State.andThen_withPar _ _ (memAccessStep_withPar _ q (by simpa using h)),
    State.andThen_withPar _ _ (executeStep_withPar _ q), olderStages]

/-- What Decode does with a word reads no argument. -/
def ParBlind (d : Word → State → State) : Prop := ∀ fpc s q, d fpc (s.withPar q) = (d fpc s).withPar q

theorem issue_parBlind (i : Issue) : ParBlind (issue i) := by
  intro fpc s q
  have ha : readOperand (s.withPar q) i.roles.src1 fpc = readOperand s i.roles.src1 fpc := rfl
  have hb : readSource2 (s.withPar q) i.src2 fpc = readSource2 s i.src2 fpc := rfl
  have hsd : readOperand (s.withPar q) i.roles.dest fpc = readOperand s i.roles.dest fpc := rfl
  unfold issue
  rw [ha, hb, hsd]
  cases operandError i.rd i.rs1 i.src2 with
  | some err => rfl
  | none => dsimp only; split <;> rfl

theorem decodeStep_withPar {d : Word → State → State} (hd : ParBlind d) (b : Bool) :
    decodeStep b d (s.withPar q) = (decodeStep b d s).withPar q := by
  have hflush : (s.withPar q).flush = s.flush := rfl
  have hlf : (s.withPar q).lf = s.lf := rfl
  unfold decodeStep
  rw [hflush, hlf]
  split
  · rfl
  split
  · rfl
  split
  · rfl
  · exact hd _ s q
  · rfl

theorem fetchStep_withPar (h : SameBounds q s.par) (b : Bool) :
    fetchStep b (s.withPar q) = (fetchStep b s).withPar q := by
  have hin : inBounds (s.withPar q).par (s.withPar q).pc.toInt = inBounds s.par s.pc.toInt :=
    inBounds_of_sameBounds h _
  rcases fetchStep_cases b s with ⟨hf, e⟩ | ⟨hf, rfl, e⟩ | ⟨hf, rfl, hb, e⟩ | ⟨hf, rfl, hb, e⟩ <;> rw [e]
  · rw [fetchStep_of_flush (s := s.withPar q) hf]; rfl
  · rw [fetchStep_of_stall (s := s.withPar q) hf]
  · rw [fetchStep_of_inBounds (s := s.withPar q) hf (hin.trans hb)]; rfl
  · rw [fetchStep_of_outOfBounds (s := s.withPar q) hf (hin.trans hb)]; rfl

/-! ## The cycle -/

theorem cycle_disguised {d : Word → State → State} (hd : DecodesOnly d) (hblind : ParBlind d) (l : Latch WPayload)
    (f : Bool) (h : SameBounds q s.par) : cycle d (s.disguised l f q) = (cycle d s).withPar q := by
  have hpar : ((olderStages s).andThen (decodeStep s.bubbleNext d)).par = s.par := by
    rw [State.andThen_keeps State.par _ _ (decodeStep_par hd _ _), olderStages_par]
  rw [cycle, olderStages_disguised s q l f h]
  show (((olderStages s).withPar q).andThen (decodeStep s.bubbleNext d)).andThen (fetchStep s.stall) = _
  rw [State.andThen_withPar _ _ (decodeStep_withPar _ q hblind _),
    State.andThen_withPar _ _ (fetchStep_withPar _ q (by rw [hpar]; exact h) _), cycle]

end Commute

/-- The answer of a clock cycle, over other arguments with the same bounds. -/
theorem clockCycle_disguised {d : Word → State → State} (hd : DecodesOnly d) (hblind : ParBlind d) {s t : State}
    {q : Config.Params} (l : Latch WPayload) (f : Bool) (h : SameBounds q s.par) (hq : q.Wf)
    (hs : clockCycle d s = .next t) : clockCycle d (s.disguised l f q) = .next (t.withPar q) := by
  obtain ⟨hr, -, rfl⟩ := clockCycle_next hs
  rw [clockCycle_running (s := s.disguised l f q) d hr hq, cycle_disguised s q hd hblind l f h]

/-- The Fetch latch and the opcode map alone choose the clock cycle that a step is. -/
theorem step_chosen (s : State) : ∃ d, DecodesOnly d ∧ ParBlind d ∧
    ∀ t : State, t.lf = s.lf → t.par.opcodeMap = s.par.opcodeMap → step t = clockCycle d t := by
  cases hlf : s.lf with
  | empty => exact ⟨_, idle_decodesOnly, fun _ _ _ => rfl, fun t ht _ => by simp [step, ht, clockIdle]⟩
  | fault e => exact ⟨_, idle_decodesOnly, fun _ _ _ => rfl, fun t ht _ => by simp [step, ht, clockIdle]⟩
  | full p =>
    cases hdec : decodeWord s.par.opcodeMap p.word with
    | error err =>
      exact ⟨_, decodeFails_decodesOnly err, fun _ _ _ => rfl, fun t ht hm => by
        simp [step, ht, hm, hdec, clockInvalid]⟩
    | ok i =>
      exact ⟨_, issue_decodesOnly _, issue_parBlind (issueOf i), fun t ht hm => by
        simp [step, ht, hm, hdec, exec_eq_clockCycle]⟩

/-- Settles O52: the same clock cycle (`step_chosen`), over the same bounds (`cycle_disguised`). -/
theorem cycleIgnoresOutputOnlyState : Obligations.CycleIgnoresOutputOnlyState := by
  intro s l f
  obtain ⟨d, hd, hblind, hstep⟩ := step_chosen s
  refine ⟨?_, fun a t h => ?_⟩
  · have hcycle : cycle d (s.disguised l f s.par) = cycle d s := by
      rw [cycle_disguised s s.par hd hblind l f ⟨rfl, rfl⟩, ← cycle_par hd s, State.withPar_self]
    have hclock : clockCycle d (s.disguised l f s.par) = clockCycle d s := by
      unfold clockCycle
      rw [hcycle]
      rfl
    exact (hstep (s.disguised l f s.par) rfl rfl).trans (hclock.trans (hstep s rfl rfl).symm)
  · rw [hstep s rfl rfl] at h
    obtain ⟨-, hp, ht⟩ := clockCycle_next h
    have hpar : t.par = s.par := by rw [ht, cycle_par hd]
    rw [hpar]
    exact (hstep (s.disguised s.lw s.flush { s.par with pcReset := a }) rfl rfl).trans
      (clockCycle_disguised hd hblind s.lw s.flush ⟨rfl, rfl⟩ hp h)

/-- Settles O53: Decode of an instruction reads no argument, and the bounds are the same. -/
theorem meaningIgnoresTheOpcodeMap : Obligations.MeaningIgnoresTheOpcodeMap := by
  intro i s t map hmap h
  rw [exec_eq_clockCycle] at h ⊢
  obtain ⟨-, ⟨hlb, hub, -⟩, ht⟩ := clockCycle_next h
  have hpar : t.par = s.par := by rw [ht, cycle_par (issue_decodesOnly _)]
  rw [hpar]
  exact clockCycle_disguised (issue_decodesOnly _) (issue_parBlind _) s.lw s.flush ⟨rfl, rfl⟩ ⟨hlb, hub, hmap⟩ h

end Sys2Proof.Machine
end
